-- ==== Sys2Proof/Word.lean ====
section
/-!
DEFINITION. The word types of the block (spec 00_scope.md R5, R6; 30_encoding.md R72).
-/

namespace Sys2Proof

/-- A 64-bit word: a row word, an operand, a syndrome, a response's data (R5, R6). -/
abbrev Word := BitVec 64

/-- A 32-bit command word `inst` (R72). -/
abbrev CommandWord := BitVec 32

/-- A 7-bit unsigned immediate `i1` or `i0` (R72, R74). -/
abbrev Imm7 := BitVec 7

/-- A matrix register number; all eight values of the 3-bit field are legal (R20, R74). -/
abbrev MReg := Fin 8

end Sys2Proof
end

