-- ==== Sys2Proof/Syntax.lean ====
section
/-!
DEFINITION. The 22 commands of GF2CORE-1 (spec 30_encoding.md R73), one constructor per row of the opcode
table with the fields the row uses; the command as the host presents it (R70); the pseudo-commands (R79).
The operand words op1 and op2 are no part of the command word: they stand in `Command` and in the state.
-/

namespace Sys2Proof

/-- A command without its operand words: the fields of R72 each row of R73 uses, in the order of R78. -/
inductive Instr where
  /-- Do nothing (R230). -/
  | nop
  /-- Read control and status register `n` (R232). -/
  | rdcsr (n : Imm7)
  /-- Construct the all-zero matrix (R101). -/
  | mzero (md : MReg) (rows cols : Imm7)
  /-- Construct an identity matrix (R102). -/
  | mident (md : MReg) (rows cols : Imm7)
  /-- Read the dimensions (R103). -/
  | mdim (ma : MReg)
  /-- Read one entry (R106). -/
  | get (ma : MReg) (row col : Imm7)
  /-- Write one entry (R108). -/
  | set (md : MReg) (row col : Imm7) (b : Bool)
  /-- Read one row word (R110). -/
  | rowrd (ma : MReg) (row : Imm7)
  /-- Write one row word (R112). -/
  | rowwr (md : MReg) (row : Imm7)
  /-- Right-multiply by a column vector (R114). -/
  | mulr (ma : MReg)
  /-- Copy a contiguous submatrix (R116). -/
  | extract (md ma : MReg) (rows cols : Imm7)
  /-- Concatenate horizontally (R118). -/
  | append (md ma mb : MReg)
  /-- Transpose (R120). -/
  | transp (md ma : MReg)
  /-- Add one row to another (R210). -/
  | rowxor (md : MReg) (dst src : Imm7)
  /-- Exchange two rows (R212). -/
  | rowswap (md : MReg) (r1 r2 : Imm7)
  /-- Reduce to reduced row echelon form (R214). -/
  | rref (md ma : MReg)
  /-- Derive the control matrix of a generator (R140). -/
  | deriveh (md ma : MReg)
  /-- Build the syndrome table (R150). -/
  | tbuild (ma : MReg)
  /-- Read one table entry (R156). -/
  | tlookup
  /-- Decode a received vector (R170). -/
  | decode (ma : MReg)
  /-- Send a vector through the channel (R190). -/
  | chsend (width : Imm7)
  /-- Reseed the channel's generator (R192). -/
  | chseed
  deriving DecidableEq, Repr

/-- A command as the host presents it on the command port: three values together (R70). -/
structure Command where
  /-- The command word. -/
  inst : CommandWord
  /-- The first operand word. -/
  op1 : Word
  /-- The second operand word. -/
  op2 : Word
  deriving DecidableEq, Repr

/-- The pseudo-commands of R79: assembler spellings with no encoding of their own. -/
inductive Pseudo where
  /-- `ENCODE Ma : message` (R171). -/
  | encode (ma : MReg)
  /-- `SYND Ma : r` (R173). -/
  | synd (ma : MReg)
  /-- `MEMPTY Md`: the 0 by 0 matrix (R101). -/
  | mempty (md : MReg)
  /-- `MCOPY Md, Ma`: transpose twice (R122). -/
  | mcopy (md ma : MReg)
  deriving DecidableEq, Repr

end Sys2Proof
end

