-- ==== Sys2Proof/WellFormed.lean ====
section
/-!
DEFINITION. Which commands a legal command word can hold: the two immediates of R74 whose range the decoder
checks (spec 30_encoding.md R74, R77 (b), (c)). Every other field is legal at every value: an index or a
dimension out of range is given to the command, which raises the error its own rule names.
-/

namespace Sys2Proof

/-- The range checks of R77 (b) and the width part of (c): `RDCSR` numbers 0..4, `CHSEND` widths 0..64. -/
def Instr.wellFormed : Instr → Bool
  | .nop => true
  | .rdcsr n => decide (n.toNat ≤ 4)
  | .mzero _ _ _ => true
  | .mident _ _ _ => true
  | .mdim _ => true
  | .get _ _ _ => true
  | .set _ _ _ _ => true
  | .rowrd _ _ => true
  | .rowwr _ _ => true
  | .mulr _ => true
  | .extract _ _ _ _ => true
  | .append _ _ _ => true
  | .transp _ _ => true
  | .rowxor _ _ _ => true
  | .rowswap _ _ _ => true
  | .rref _ _ => true
  | .deriveh _ _ => true
  | .tbuild _ => true
  | .tlookup => true
  | .decode _ => true
  | .chsend width => decide (width.toNat ≤ 64)
  | .chseed => true

end Sys2Proof
end

