-- ==== Sys2Proof/Decode.lean ====
section
/-!
DEFINITION. The command word: field positions (spec 30_encoding.md R72), the opcode map with its match and
mask words (R73), the decoder (R75, R77, R80), and after it the encoder written from R72's formula, the
pseudo-commands' expansions (R79) and the assembler's text (R78).
-/

namespace Sys2Proof

/-- One name per row of the opcode map (R73). -/
inductive Opcode where
  | nop | rdcsr | mzero | mident | mdim | get | set | rowrd | rowwr | mulr | extract | append | transp
  | rowxor | rowswap | rref | deriveh | tbuild | tlookup | decode | chsend | chseed
  deriving DecidableEq, Repr

/-- The rows of R73 in the table's order. -/
def opcodeTable : List Opcode :=
  [.nop, .rdcsr, .mzero, .mident, .mdim, .get, .set, .rowrd, .rowwr, .mulr, .extract] ++
  [.append, .transp, .rowxor, .rowswap, .rref, .deriveh, .tbuild, .tlookup, .decode, .chsend, .chseed]

/-- R73, column "opcode bits [31:26]". -/
def Opcode.bits : Opcode → BitVec 6
  | .nop => 0x00 | .rdcsr => 0x01
  | .mzero => 0x08 | .mident => 0x09 | .mdim => 0x0A | .get => 0x0B | .set => 0x0C | .rowrd => 0x0D
  | .rowwr => 0x0E | .mulr => 0x0F | .extract => 0x10 | .append => 0x11 | .transp => 0x12
  | .rowxor => 0x18 | .rowswap => 0x19 | .rref => 0x1A
  | .deriveh => 0x20 | .tbuild => 0x28 | .tlookup => 0x29 | .decode => 0x30
  | .chsend => 0x38 | .chseed => 0x39

/-- R73, column "match". -/
def Opcode.matchWord : Opcode → CommandWord
  | .nop => 0x00000000 | .rdcsr => 0x04000000
  | .mzero => 0x20000000 | .mident => 0x24000000 | .mdim => 0x28000000 | .get => 0x2C000000
  | .set => 0x30000000 | .rowrd => 0x34000000 | .rowwr => 0x38000000 | .mulr => 0x3C000000
  | .extract => 0x40000000 | .append => 0x44000000 | .transp => 0x48000000
  | .rowxor => 0x60000000 | .rowswap => 0x64000000 | .rref => 0x68000000
  | .deriveh => 0x80000000 | .tbuild => 0xA0000000 | .tlookup => 0xA4000000 | .decode => 0xC0000000
  | .chsend => 0xE0000000 | .chseed => 0xE4000000

/-- R73, column "mask": the opcode and every field the command does not use. -/
def Opcode.maskWord : Opcode → CommandWord
  | .nop => 0xFFFFFFFF | .rdcsr => 0xFFFFFF80
  | .mzero => 0xFC7FC000 | .mident => 0xFC7FC000 | .mdim => 0xFF8FFFFF | .get => 0xFF8FC000
  | .set => 0xFC7F8000 | .rowrd => 0xFF8FC07F | .rowwr => 0xFC7FC07F | .mulr => 0xFF8FFFFF
  | .extract => 0xFC0FC000 | .append => 0xFC01FFFF | .transp => 0xFC0FFFFF
  | .rowxor => 0xFC7FC000 | .rowswap => 0xFC7FC000 | .rref => 0xFC0FFFFF
  | .deriveh => 0xFC0FFFFF | .tbuild => 0xFF8FFFFF | .tlookup => 0xFFFFFFFF | .decode => 0xFF8FFFFF
  | .chsend => 0xFFFFFF80 | .chseed => 0xFFFFFFFF

/-- The row whose opcode is `o`, none for the 42 reserved values (R75, R80). -/
def Opcode.ofBits (o : BitVec 6) : Option Opcode := opcodeTable.find? fun row => row.bits == o

/-- Field [31:26] (R72). -/
def fieldOpcode (x : CommandWord) : BitVec 6 := x.extractLsb' 26 6
/-- Field [25:23] (R72). -/
def fieldMd (x : CommandWord) : MReg := (x.extractLsb' 23 3).toFin
/-- Field [22:20] (R72). -/
def fieldMa (x : CommandWord) : MReg := (x.extractLsb' 20 3).toFin
/-- Field [19:17] (R72). -/
def fieldMb (x : CommandWord) : MReg := (x.extractLsb' 17 3).toFin
/-- Field [14] (R72). -/
def fieldB (x : CommandWord) : Bool := x.getLsbD 14
/-- Field [13:7] (R72). -/
def fieldI1 (x : CommandWord) : Imm7 := x.extractLsb' 7 7
/-- Field [6:0] (R72). -/
def fieldI0 (x : CommandWord) : Imm7 := x.extractLsb' 0 7

/-- The command of a row with its fields read from the word, taken as they stand (R73, R74). -/
def Opcode.instr (row : Opcode) (x : CommandWord) : Instr :=
  match row with
  | .nop => .nop
  | .rdcsr => .rdcsr (fieldI0 x)
  | .mzero => .mzero (fieldMd x) (fieldI1 x) (fieldI0 x)
  | .mident => .mident (fieldMd x) (fieldI1 x) (fieldI0 x)
  | .mdim => .mdim (fieldMa x)
  | .get => .get (fieldMa x) (fieldI1 x) (fieldI0 x)
  | .set => .set (fieldMd x) (fieldI1 x) (fieldI0 x) (fieldB x)
  | .rowrd => .rowrd (fieldMa x) (fieldI1 x)
  | .rowwr => .rowwr (fieldMd x) (fieldI1 x)
  | .mulr => .mulr (fieldMa x)
  | .extract => .extract (fieldMd x) (fieldMa x) (fieldI1 x) (fieldI0 x)
  | .append => .append (fieldMd x) (fieldMa x) (fieldMb x)
  | .transp => .transp (fieldMd x) (fieldMa x)
  | .rowxor => .rowxor (fieldMd x) (fieldI1 x) (fieldI0 x)
  | .rowswap => .rowswap (fieldMd x) (fieldI1 x) (fieldI0 x)
  | .rref => .rref (fieldMd x) (fieldMa x)
  | .deriveh => .deriveh (fieldMd x) (fieldMa x)
  | .tbuild => .tbuild (fieldMa x)
  | .tlookup => .tlookup
  | .decode => .decode (fieldMa x)
  | .chsend => .chsend (fieldI0 x)
  | .chseed => .chseed

/-- Why a command word is no command (R75, R77); each is answered by raising `IllegalCommand`. -/
inductive IllegalForm where
  /-- The opcode is one of the 42 reserved values (R75). -/
  | reservedOpcode
  /-- A bit of a field the command does not use is 1 (R77 (a)). -/
  | unusedField
  /-- A `RDCSR` number above 4 or a `CHSEND` width above 64 (R77 (b), (c)). -/
  | immediateRange
  deriving DecidableEq, Repr

/-- The decode procedure of R80 on the command word, in its order. Its last clause, the `CHSEND` threshold
in op2, is no part of the word: `Sys2Proof.Machine.execChsend` makes that check first (log entry 13). -/
def decodeWord (x : CommandWord) : Except IllegalForm Instr :=
  match Opcode.ofBits (fieldOpcode x) with
  | none => .error .reservedOpcode
  | some row =>
    if x &&& row.maskWord ≠ row.matchWord then .error .unusedField
    else if (row.instr x).wellFormed then .ok (row.instr x)
    else .error .immediateRange

/-- A command whose bits are `w`, `inst` lowest, then `op1`, then `op2`; the bits above `nbits` are 0. -/
def commandOfTableWord (nbits w : Nat) : Command :=
  { inst := BitVec.ofNat 32 (w % 2 ^ nbits)
    op1 := BitVec.ofNat 64 ((w % 2 ^ nbits) >>> 32)
    op2 := BitVec.ofNat 64 ((w % 2 ^ nbits) >>> 96) }

/-- The instruction the decoder reads from a command whose bits are `w`, none where it refuses. -/
def decodeTableWord (nbits w : Nat) : Option Instr :=
  match decodeWord (commandOfTableWord nbits w).inst with
  | .ok i => some i
  | .error _ => none

/-! The encoder. -/

/-- R72's formula `opcode << 26 | md << 23 | ma << 20 | mb << 17 | b << 14 | i1 << 7 | i0`. -/
def commandWord (opcode : BitVec 6) (md ma mb : MReg) (b : Bool) (i1 i0 : Imm7) : CommandWord :=
  opcode.setWidth 32 <<< 26 ||| (BitVec.ofFin (w := 3) md).setWidth 32 <<< 23 |||
    (BitVec.ofFin (w := 3) ma).setWidth 32 <<< 20 ||| (BitVec.ofFin (w := 3) mb).setWidth 32 <<< 17 |||
    (BitVec.ofBool b).setWidth 32 <<< 14 ||| i1.setWidth 32 <<< 7 ||| i0.setWidth 32

/-- The row of R73 a command belongs to. -/
def Instr.opcode : Instr → Opcode
  | .nop => .nop
  | .rdcsr _ => .rdcsr
  | .mzero _ _ _ => .mzero
  | .mident _ _ _ => .mident
  | .mdim _ => .mdim
  | .get _ _ _ => .get
  | .set _ _ _ _ => .set
  | .rowrd _ _ => .rowrd
  | .rowwr _ _ => .rowwr
  | .mulr _ => .mulr
  | .extract _ _ _ _ => .extract
  | .append _ _ _ => .append
  | .transp _ _ => .transp
  | .rowxor _ _ _ => .rowxor
  | .rowswap _ _ _ => .rowswap
  | .rref _ _ => .rref
  | .deriveh _ _ => .deriveh
  | .tbuild _ => .tbuild
  | .tlookup => .tlookup
  | .decode _ => .decode
  | .chsend _ => .chsend
  | .chseed => .chseed

/-- The command word of an instruction: R72's formula with every field it does not use 0 (R73). -/
def encode : Instr → CommandWord
  | .nop => commandWord 0x00 0 0 0 false 0 0
  | .rdcsr n => commandWord 0x01 0 0 0 false 0 n
  | .mzero md rows cols => commandWord 0x08 md 0 0 false rows cols
  | .mident md rows cols => commandWord 0x09 md 0 0 false rows cols
  | .mdim ma => commandWord 0x0A 0 ma 0 false 0 0
  | .get ma row col => commandWord 0x0B 0 ma 0 false row col
  | .set md row col b => commandWord 0x0C md 0 0 b row col
  | .rowrd ma row => commandWord 0x0D 0 ma 0 false row 0
  | .rowwr md row => commandWord 0x0E md 0 0 false row 0
  | .mulr ma => commandWord 0x0F 0 ma 0 false 0 0
  | .extract md ma rows cols => commandWord 0x10 md ma 0 false rows cols
  | .append md ma mb => commandWord 0x11 md ma mb false 0 0
  | .transp md ma => commandWord 0x12 md ma 0 false 0 0
  | .rowxor md dst src => commandWord 0x18 md 0 0 false dst src
  | .rowswap md r1 r2 => commandWord 0x19 md 0 0 false r1 r2
  | .rref md ma => commandWord 0x1A md ma 0 false 0 0
  | .deriveh md ma => commandWord 0x20 md ma 0 false 0 0
  | .tbuild ma => commandWord 0x28 0 ma 0 false 0 0
  | .tlookup => commandWord 0x29 0 0 0 false 0 0
  | .decode ma => commandWord 0x30 0 ma 0 false 0 0
  | .chsend width => commandWord 0x38 0 0 0 false 0 width
  | .chseed => commandWord 0x39 0 0 0 false 0 0

/-- The expansions of R79. -/
def Pseudo.expand : Pseudo → List Instr
  | .encode ma => [.mulr ma]
  | .synd ma => [.mulr ma]
  | .mempty md => [.mzero md 0 0]
  | .mcopy md ma => [.transp md ma, .transp md md]

/-! The assembler's text (R78). -/

/-- The assembler name of a matrix register (R20). -/
def asmReg (j : MReg) : String := "M" ++ j.val.repr

/-- An immediate in assembler text (R78). -/
def asmImm (n : Imm7) : String := "#" ++ n.toNat.repr

/-- Operands separated by commas after the mnemonic (R78). -/
def asmLine (mnemonic : String) (operands : List String) : String :=
  match operands with
  | [] => mnemonic
  | _ => mnemonic ++ " " ++ ", ".intercalate operands

/-- The line of R78 for a command without the operand words: registers in the order destination, first
source, second source, then the immediates in the order `i1`, `i0`, `b`. -/
def asmFields : Instr → String
  | .nop => asmLine "NOP" []
  | .rdcsr n => asmLine "RDCSR" [asmImm n]
  | .mzero md rows cols => asmLine "MZERO" [asmReg md, asmImm rows, asmImm cols]
  | .mident md rows cols => asmLine "MIDENT" [asmReg md, asmImm rows, asmImm cols]
  | .mdim ma => asmLine "MDIM" [asmReg ma]
  | .get ma row col => asmLine "GET" [asmReg ma, asmImm row, asmImm col]
  | .set md row col b => asmLine "SET" [asmReg md, asmImm row, asmImm col, if b then "#1" else "#0"]
  | .rowrd ma row => asmLine "ROWRD" [asmReg ma, asmImm row]
  | .rowwr md row => asmLine "ROWWR" [asmReg md, asmImm row]
  | .mulr ma => asmLine "MULR" [asmReg ma]
  | .extract md ma rows cols => asmLine "EXTRACT" [asmReg md, asmReg ma, asmImm rows, asmImm cols]
  | .append md ma mb => asmLine "APPEND" [asmReg md, asmReg ma, asmReg mb]
  | .transp md ma => asmLine "TRANSP" [asmReg md, asmReg ma]
  | .rowxor md dst src => asmLine "ROWXOR" [asmReg md, asmImm dst, asmImm src]
  | .rowswap md r1 r2 => asmLine "ROWSWAP" [asmReg md, asmImm r1, asmImm r2]
  | .rref md ma => asmLine "RREF" [asmReg md, asmReg ma]
  | .deriveh md ma => asmLine "DERIVEH" [asmReg md, asmReg ma]
  | .tbuild ma => asmLine "TBUILD" [asmReg ma]
  | .tlookup => asmLine "TLOOKUP" []
  | .decode ma => asmLine "DECODE" [asmReg ma]
  | .chsend width => asmLine "CHSEND" [asmImm width]
  | .chseed => asmLine "CHSEED" []

/-- The operand words a command reads, in the order op1, op2 (R76). -/
def operandsRead (c : Command) : Instr → List Word
  | .nop => []
  | .rdcsr _ => []
  | .mzero _ _ _ => []
  | .mident _ _ _ => []
  | .mdim _ => []
  | .get _ _ _ => []
  | .set _ _ _ _ => []
  | .rowrd _ _ => []
  | .rowwr _ _ => [c.op1]
  | .mulr _ => [c.op1]
  | .extract _ _ _ _ => [c.op1, c.op2]
  | .append _ _ _ => []
  | .transp _ _ => []
  | .rowxor _ _ _ => []
  | .rowswap _ _ _ => []
  | .rref _ _ => []
  | .deriveh _ _ => []
  | .tbuild _ => []
  | .tlookup => [c.op1]
  | .decode _ => [c.op1]
  | .chsend _ => [c.op1, c.op2]
  | .chseed => [c.op1]

/-- The assembler line of a command, the operand words it reads after a colon (R78). -/
def asmCommand (i : Instr) (c : Command) : String :=
  match operandsRead c i with
  | [] => asmFields i
  | ops => asmFields i ++ " : " ++ ", ".intercalate (ops.map fun x => x.toNat.repr)

end Sys2Proof
end

