-- ==== Sys2Proof/Config.lean ====
section
/-!
DEFINITION. What the spec fixes for every block of this kind, and what it leaves open: the parameter RNG
(spec 00_scope.md R5, 44_channel.md R194) and the unspecified values (40_bitmatrix.md R115, 10_state.md R39)
are constants with no body, so that nothing can be proved of their values.
-/

namespace Sys2Proof.Config

/-- NMAT, the number of matrix registers (R5, R20). -/
def nmat : Nat := 8

/-- W, the word width: the most rows, columns and vector bits (R5). -/
def wordWidth : Nat := 64

/-- The version number of GF2CORE-1 in CONFIG (R35). -/
def version : Nat := 1

/-- The spec's suggested SMAX (R5). DESIGN CHOICE (log entry 7): the value State.reset takes; SMAX itself is
open, and every statement about a state holds for every value of its `smax`. -/
def suggestedSmax : Fin 64 := 16

/-- RNG.S, the generator's state type, coded in the natural numbers (R5, R27). DESIGN CHOICE, safe (log
entry 4): every countable state type can be coded so, and the functions on it are unconstrained. -/
abbrev RngState := Nat

/-- RNG.seed (R5, R192): a free function. Log entry 4. -/
opaque rngSeed : Word → RngState

/-- RNG.next (R5, R27): a draw `u` of 32 bits and the next state; a free function. Log entry 4. -/
opaque rngNext : RngState → BitVec 32 × RngState

/-- The value of `rng` after the reset that is draw number `k` (R39 "unspecified: any value of RNG.S", U4): a
free value. Log entry 5. -/
opaque rngAtReset : Nat → RngState

/-- `any64` of draw number `k` (R9, R115, R175, U1, U2): a free value. Log entry 6. -/
opaque anyWord : Nat → Word

end Sys2Proof.Config
end

