-- ==== Sys2Proof/Machine/State.lean ====
section
/-!
DEFINITION. The state of the block (spec 10_state.md), with the ports (30_encoding.md R70, R71) and the
host's side of them (70_reset_and_hazards.md R292, R293) as plain data, and its value after reset (R39).
-/

namespace Sys2Proof.Machine

open Sys2Proof

/-- A matrix value (R20): `cols` significant bits in each row word, one row word per row. The number of rows
is the number of row words held, so a row word at or beyond `rows` has no value (R23; log entry 10). -/
structure BitMatrix where
  /-- The number of columns, 0..64 (R20, R21). -/
  cols : Nat
  /-- The row words `w[0]` to `w[rows-1]` (R20). -/
  w : List Word
  deriving DecidableEq, Repr

/-- The number of rows, 0..64 (R20, R21). -/
abbrev BitMatrix.rows (m : BitMatrix) : Nat := m.w.length

/-- The 0 by 0 matrix (R39). -/
def BitMatrix.empty : BitMatrix := { cols := 0, w := [] }

/-- The syndrome table (R25): pairs of a syndrome and its weight, the syndromes strictly rising, so that
equal partial maps are equal data (log entry 11). -/
abbrev Table := List (Word × Nat)

/-- The six error kinds (R240). Code 7 is never produced, so it has no constructor (U18; log entry 16). -/
inductive ErrKind where
  /-- A row or column index out of bounds (R241). -/
  | indexError
  /-- Mismatched row counts, a region out of bounds, a dimension above 64 (R242). -/
  | dimensionError
  /-- A generator with no rows or with fewer columns than rows (R243). -/
  | invalidGeneratorShape
  /-- A malformed command (R75, R77). -/
  | illegalCommand
  /-- A control matrix with more rows than SMAX (R155). -/
  | capacityError
  /-- A control matrix with more rows than columns (R177). -/
  | invalidControlShape
  deriving DecidableEq, Repr

/-- A response: `err` and `rdata` (R71). -/
structure Response where
  /-- The fault field after the command. -/
  err : BitVec 3
  /-- The command's result. -/
  rdata : Word
  deriving DecidableEq, Repr

/-- What the host does at the ports (R70, R71, R270, R292). -/
inductive PortEvent where
  /-- The host presents a command and holds it, its values stable, until it is accepted (R292). -/
  | command (c : Command)
  /-- The host takes the response, if one is presented. -/
  | takeResponse
  /-- The host drives `rst` high at a clock edge. -/
  | rst
  deriving DecidableEq, Repr

/-- The state: the five components of 10_state.md, the constant SMAX, the two ports, the host's side, and the
model's counter of free values. -/
structure State where
  /-- `M[0]` to `M[7]` (R20). -/
  mats : Vector BitMatrix 8
  /-- The syndrome table `T` (R25). -/
  tab : Table
  /-- The columns of the last built control matrix (R26). -/
  tn : Nat
  /-- The rows of the last built control matrix (R26). -/
  tbits : Nat
  /-- Whether a build has completed since reset (R26). -/
  tbuilt : Bool
  /-- The channel's generator state (R27). -/
  rng : Config.RngState
  /-- The recorded error, none when not in the fault state (R28). -/
  err : Option ErrKind
  /-- The command word that raised, 0 when none (R28). -/
  ecmd : CommandWord
  /-- SMAX, the constant part of CONFIG that the spec leaves open in 0..63 (R5, R35). -/
  smax : Fin 64
  /-- `inst`, `op1`, `op2` of the command being executed (R9, R70). -/
  cmd : Command
  /-- The response presented and not yet taken (R71). -/
  resp : Option Response
  /-- What the host will do next at the ports, oldest first (R29, R292); a command the host holds until the block
  is ready stays the first. The host's, not the block's. -/
  inputs : List PortEvent
  /-- The responses the host has taken, oldest first (R293). The host's, not the block's. -/
  taken : List Response
  /-- How many free values have been drawn: the model's own field (log entry 6). -/
  free : Nat
  deriving DecidableEq, Repr

/-- The state after reset (R39), with no input from the host yet. `rng` is a free value, draw number 0
(log entry 5); SMAX is the spec's suggested value (log entry 7); the wires of the idle command port are 0
(log entry 8). -/
def State.reset : State where
  mats := Vector.replicate 8 BitMatrix.empty
  tab := []
  tn := 0
  tbits := 0
  tbuilt := false
  rng := Config.rngAtReset 0
  err := none
  ecmd := 0
  smax := Config.suggestedSmax
  cmd := { inst := 0, op1 := 0, op2 := 0 }
  resp := none
  inputs := []
  taken := []
  free := 1

/-- Reasons for the machine to stop: none. "Nothing in the block is stuck: every command terminates and the
fault state still answers every command" (93_implementation_defined.md part 1; R290, R245). An error of the
block is a next state with `err` recorded (R244), not a stop. Log entry 15. -/
inductive Fault
  deriving DecidableEq, Repr

/-- Reasons for the model to refuse an instruction. -/
inductive Refusal where
  /-- Answered by an arm of `exec` whose instruction has no meaning yet. Safe: the run stops. No arm is left. -/
  | notModelled (mnemonic : String)
  deriving DecidableEq, Repr

end Sys2Proof.Machine
end

