-- ==== Sys2Proof/Machine/Bits.lean ====
section
/-!
DEFINITION. The bit primitives of spec 00_scope.md R7, R8: masks, popcount, parity, and the assembly of bits
into a word with the first bit most significant.
-/

namespace Sys2Proof.Machine

open Sys2Proof

/-- `mask(n) = 2^n - 1` for `0 <= n <= 64`, so `mask(0) = 0` (R7). -/
def mask (n : Nat) : Word := BitVec.ofNat 64 (2 ^ n - 1)

/-- The word with bit `p` alone set, 0 when `p` is 64 or more (R7). -/
def oneAt (p : Nat) : Word := 1#64 <<< p

/-- The number of 1 bits of `x` at positions below `k`. -/
def popcountBelow (x : Word) : Nat → Nat
  | 0 => 0
  | k + 1 => popcountBelow x k + (x.getLsbD k).toNat

/-- `popcount(x)`, the number of 1 bits (R8). -/
def popcount (x : Word) : Nat := popcountBelow x 64

/-- `parity(x) = popcount(x) mod 2`, true for 1 (R8). -/
def parity (x : Word) : Bool := popcount x % 2 == 1

/-- The word of a list of bits, the first bit the most significant: bit `i` of `n` stands at position
`n - 1 - i` (R114 "most-significant-row first", R120). -/
def packBits : List Bool → Word
  | [] => 0
  | b :: bs => (if b then oneAt bs.length else 0) ||| packBits bs

/-- Whether `v` has a 1 at a position at or above `n`: the test `v >> n != 0` (R112, R115, R175). -/
def overWide (v : Word) (n : Nat) : Bool := v >>> n != 0

end Sys2Proof.Machine
end

