-- ==== Sys2Proof/Machine/MatrixOps.lean ====
section
/-!
DEFINITION. The operations on matrix values (spec 40_bitmatrix.md, 41_codebuilder.md, 45_row_reduce.md), each a
pure function; which command stores what where is in the command files.
-/

namespace Sys2Proof.Machine

open Sys2Proof

/-- The row word of row `r`, `w[r]` (R9), for `r < rows`. -/
def BitMatrix.row (m : BitMatrix) (r : Nat) : Word := m.w.getD r 0

/-- `bit(m, r, c) = m.w[r][cols - 1 - c]`, for `r < rows` and `c < cols` (R9, R22). -/
def BitMatrix.bit (m : BitMatrix) (r c : Nat) : Bool := (m.row r).getLsbD (m.cols - 1 - c)

/-- `M[j].w[r] <- x`, the rest of the record kept (R9). -/
def BitMatrix.setRow (m : BitMatrix) (r : Nat) (x : Word) : BitMatrix := { m with w := m.w.set r x }

/-- The row word `x` with bit `p` made `b` (R108). -/
def putBit (x : Word) (p : Nat) (b : Bool) : Word := (x &&& ~~~(oneAt p)) ||| (if b then oneAt p else 0)

/-- One entry written, every other kept (R108). -/
def BitMatrix.setBit (m : BitMatrix) (r c : Nat) (b : Bool) : BitMatrix :=
  m.setRow r (putBit (m.row r) (m.cols - 1 - c) b)

/-- The all-zero matrix (R101). -/
def BitMatrix.zero (rows cols : Nat) : BitMatrix := { cols := cols, w := List.replicate rows 0 }

/-- The identity matrix: row `r` has its 1 at column `r`, bit `cols - 1 - r`, for `r < cols` (R102). -/
def BitMatrix.ident (rows cols : Nat) : BitMatrix :=
  { cols := cols, w := (List.range rows).map fun r => if r < cols then oneAt (cols - 1 - r) else 0 }

/-- `mulr(m, v)` for a `v` within the width: the parities of the rows and `v`, row 0 most significant
(R114). -/
def BitMatrix.mulr (m : BitMatrix) (v : Word) : Word := packBits (m.w.map fun x => parity (x &&& v))

/-- Whether a region lies within the matrix; the sums do not wrap (R116, R7). -/
def BitMatrix.hasRegion (m : BitMatrix) (rows cols rowOffset colOffset : Nat) : Bool :=
  decide (rowOffset + rows ≤ m.rows) && decide (colOffset + cols ≤ m.cols)

/-- The submatrix of a region within the matrix (R116). -/
def BitMatrix.extract (m : BitMatrix) (rows cols rowOffset colOffset : Nat) : BitMatrix :=
  { cols := cols
    w := (List.range rows).map fun r => (m.row (rowOffset + r) >>> (m.cols - colOffset - cols)) &&& mask cols }

/-- Horizontal concatenation of two matrices with equally many rows (R118). -/
def BitMatrix.append (a o : BitMatrix) : BitMatrix :=
  { cols := a.cols + o.cols, w := List.zipWith (fun (x y : Word) => x <<< o.cols ||| y) a.w o.w }

/-- The transpose: row `j` holds column `j`, row 0's entry most significant (R120). -/
def BitMatrix.transpose (a : BitMatrix) : BitMatrix :=
  { cols := a.rows
    w := (List.range a.cols).map fun j => packBits ((List.range a.rows).map fun i => a.bit i j) }

/-- `[A^t | I]` of a generator with `1 <= k <= n`: extract the free block, transpose, append the identity
(R140). -/
def BitMatrix.deriveControl (g : BitMatrix) : BitMatrix :=
  ((g.extract g.rows (g.cols - g.rows) 0 g.rows).transpose).append
    (BitMatrix.ident (g.cols - g.rows) (g.cols - g.rows))

/-- Row `dst` becomes row `dst` + row `src` (R210). -/
def BitMatrix.rowXor (m : BitMatrix) (dst src : Nat) : BitMatrix := m.setRow dst (m.row dst ^^^ m.row src)

/-- Two rows exchanged; both reads are of the old value (R212). -/
def BitMatrix.rowSwap (m : BitMatrix) (r1 r2 : Nat) : BitMatrix :=
  (m.setRow r1 (m.row r2)).setRow r2 (m.row r1)

/-- The smallest row index `q` with `p <= q < rows` whose entry in column `c` is 1 (R214). -/
def BitMatrix.pivotRow (m : BitMatrix) (p c : Nat) : Option Nat :=
  (List.range m.rows).find? fun q => decide (p ≤ q) && m.bit q c

/-- Every row but row `p` that has a 1 in column `c` gets row `p` added (R214). -/
def BitMatrix.clearColumn (m : BitMatrix) (p c : Nat) : BitMatrix :=
  { m with w := (List.range m.rows).map fun i => if i ≠ p ∧ m.bit i c then m.row i ^^^ m.row p else m.row i }

/-- One column of the elimination: `m` is the matrix so far and `piv` the pivot columns found, oldest first,
so `p` of R214 is `piv.length`. At `p = rows` the loop has ended. -/
def rrefColumn (m : BitMatrix) (piv : List Nat) (c : Nat) : BitMatrix × List Nat :=
  if piv.length = m.rows then (m, piv)
  else
    match m.pivotRow piv.length c with
    | none => (m, piv)
    | some q => ((m.rowSwap piv.length q).clearColumn piv.length c, piv ++ [c])

/-- The elimination over the columns of `cs`, left to right (R214). -/
def rrefColumns (m : BitMatrix) (piv : List Nat) : List Nat → BitMatrix × List Nat
  | [] => (m, piv)
  | c :: cs => rrefColumns (rrefColumn m piv c).1 (rrefColumn m piv c).2 cs

/-- The reduced row echelon form and the pivot columns (R214). -/
def BitMatrix.rref (m : BitMatrix) : BitMatrix × List Nat := rrefColumns m [] (List.range m.cols)

/-- `std` of R214: at least one row, full rank, and pivot `j` in column `j` for every row `j`. -/
def stdForm (rows : Nat) (piv : List Nat) : Bool := decide (1 ≤ rows) && piv == List.range rows

end Sys2Proof.Machine
end

