-- ==== Sys2Proof/Machine/TableOps.lean ====
section
/-!
DEFINITION. The syndrome table: lookup, insertion, the build (spec 42_syndrome_table.md), the greedy pass of
the decoder over it (43_codec.md).
-/

namespace Sys2Proof.Machine

open Sys2Proof

/-- `T[y]` where `T.has(y)`, none where absent (R25). -/
def tableFind : Table → Word → Option Nat
  | [], _ => none
  | (k, n) :: t, y => if k = y then some n else tableFind t y

/-- `T.has(y)` (R25). -/
def tableHas (t : Table) (y : Word) : Bool := (tableFind t y).isSome

/-- `T.count` (R25). -/
def tableCount (t : Table) : Nat := t.length

/-- `Wt(y) = T[y]` if `T.has(y)`, else 0 (R172). -/
def tableWeight (t : Table) (y : Word) : Nat := (tableFind t y).getD 0

/-- `T[y] <- n`, keeping the syndromes strictly rising. -/
def tableInsert : Table → Word → Nat → Table
  | [], y, n => [(y, n)]
  | (k, n') :: t, y, n =>
    if y.toNat < k.toNat then (y, n) :: (k, n') :: t
    else if k = y then (y, n) :: t
    else (k, n') :: tableInsert t y n

/-- `if not N.has(syn): N[syn] <- w` (R150). -/
def tableRecord (t : Table) (y : Word) (n : Nat) : Table := if tableHas t y then t else tableInsert t y n

/-- `patterns(n, w)`: the `n`-bit vectors with exactly `w` bits set, in increasing numeric order: first those
with bit `n-1` clear, then those with it set (R151). -/
def patterns : Nat → Nat → List Word
  | _, 0 => [0]
  | 0, _ + 1 => []
  | n + 1, w + 1 => patterns n (w + 1) ++ (patterns n w).map fun e => e ||| oneAt n

/-- The inner loop of R150 over the candidates of weight `w`, stopping once the table holds `full` entries. -/
def scanPatterns (h : BitMatrix) (full w : Nat) : List Word → Table → Table
  | [], t => t
  | e :: es, t =>
    if tableCount t = full then t else scanPatterns h full w es (tableRecord t (h.mulr e) w)

/-- The outer loop of R150 over the weights, strictly increasing, stopping once the table is full. -/
def scanWeights (h : BitMatrix) (full : Nat) : List Nat → Table → Table
  | [], t => t
  | w :: ws, t =>
    if tableCount t = full then t else scanWeights h full ws (scanPatterns h full w (patterns h.cols w) t)

/-- The table `N` that the build of R150 ends with; a matrix with no rows skips the enumeration. -/
def buildTable (h : BitMatrix) : Table :=
  if h.rows = 0 then [(0, 0)] else scanWeights h (2 ^ h.rows) (List.range (h.cols + 1)) []

/-- The loop of R170 over the positions still to visit: stop at weight 0; flip position `i`, counted from the
most significant end, only if that strictly lowers the weight. -/
def greedyPass (h : BitMatrix) (t : Table) : List Nat → Word → Word
  | [], r => r
  | i :: is, r =>
    if tableWeight t (h.mulr r) = 0 then r
    else if tableWeight t (h.mulr (r ^^^ oneAt (h.cols - i - 1))) < tableWeight t (h.mulr r) then
      greedyPass h t is (r ^^^ oneAt (h.cols - i - 1))
    else greedyPass h t is r

/-- The decoded message of R170 for a control matrix with `rows <= cols` and a vector within its width. -/
def decodeVector (h : BitMatrix) (t : Table) (r : Word) : Word :=
  greedyPass h t (List.range (h.cols - h.rows)) r >>> h.rows

end Sys2Proof.Machine
end

