-- ==== Sys2Proof/Machine/Flags.lean ====
section
/-!
DEFINITION. The block has no flags (spec 10_state.md R36). What stands in their place is here: the error codes
(60_exceptions.md R240), the levels derived from the state (R71, R70, R248), and the words software reads
status in: the CSRs (R31 to R35) and the packed results of MDIM, TLOOKUP and RREF.
-/

namespace Sys2Proof.Machine

open Sys2Proof

/-- The numeric code of an error kind (R240, R31). -/
def ErrKind.code : ErrKind → BitVec 3
  | .indexError => 1
  | .dimensionError => 2
  | .invalidGeneratorShape => 3
  | .illegalCommand => 4
  | .capacityError => 5
  | .invalidControlShape => 6

/-- The field `err`: the recorded code, 0 when none (R28). -/
def State.errCode (s : State) : BitVec 3 :=
  match s.err with
  | none => 0
  | some k => k.code

/-- The `fault` output: high exactly when `err != 0` (R71, R248). -/
def State.faultPin (s : State) : Bool := s.errCode != 0

/-- `cmd_ready`: low from acceptance until the response has been handed over (R70). -/
def State.cmdReady (s : State) : Bool := s.resp.isNone

/-- `resp_valid`: a response is presented (R71). -/
def State.respValid (s : State) : Bool := s.resp.isSome

/-- `tfull = 1` iff `tbuilt = 1` and `T.count = 2^tbits` (R33). -/
def State.tfull (s : State) : Bool := s.tbuilt && tableCount s.tab == 2 ^ s.tbits

/-- `CSR[0]` ERR (R31). -/
def State.csrErr (s : State) : Word := s.errCode.setWidth 64

/-- `CSR[1]` ECMD (R32). -/
def State.csrEcmd (s : State) : Word := s.ecmd.setWidth 64

/-- `CSR[2]` TSTAT: `tn` at [6:0], `tbits` at [14:8], `tbuilt` at 16, `tfull` at 17 (R33). -/
def State.csrTstat (s : State) : Word :=
  BitVec.ofNat 64 (s.tn ||| s.tbits <<< 8 ||| s.tbuilt.toNat <<< 16 ||| s.tfull.toNat <<< 17)

/-- `CSR[3]` TCOUNT (R34). -/
def State.csrTcount (s : State) : Word := BitVec.ofNat 64 (tableCount s.tab)

/-- `CSR[4]` CONFIG: NMAT at [3:0], SMAX at [14:8], the version at [23:16] (R35). -/
def State.csrConfig (s : State) : Word :=
  BitVec.ofNat 64 (Config.nmat ||| s.smax.val <<< 8 ||| Config.version <<< 16)

/-- `CSR[n]` for `n` in 0..4 (R30). -/
def State.csr (s : State) (n : Nat) : Word :=
  match n with
  | 0 => s.csrErr
  | 1 => s.csrEcmd
  | 2 => s.csrTstat
  | 3 => s.csrTcount
  | _ => s.csrConfig

/-- `rows << 8 | cols` (R103). -/
def packDims (rows cols : Nat) : Word := BitVec.ofNat 64 (rows <<< 8 ||| cols)

/-- `flag << 7 | low`: `present << 7 | weight` (R156), `std << 7 | rank` (R214). -/
def packFlag (flag : Bool) (low : Nat) : Word := BitVec.ofNat 64 (flag.toNat <<< 7 ||| low)

end Sys2Proof.Machine
end

