-- ==== Sys2Proof/Machine/Operands.lean ====
section
/-!
DEFINITION. The operand forms (spec 30_encoding.md R74, R76): immediates and operand words as the unsigned
integers they stand for, matrix registers by number, and the range tests on them.
-/

namespace Sys2Proof.Machine

open Sys2Proof

/-- `M[j]` (R9). -/
def State.mat (s : State) (j : MReg) : BitMatrix := s.mats[j]

/-- The command word being executed (R9). -/
abbrev State.inst (s : State) : CommandWord := s.cmd.inst

/-- The first operand word of the command being executed (R76). -/
abbrev State.op1 (s : State) : Word := s.cmd.op1

/-- The second operand word of the command being executed (R76). -/
abbrev State.op2 (s : State) : Word := s.cmd.op2

/-- A row index below `rows` (R241). -/
def BitMatrix.hasRow (m : BitMatrix) (r : Imm7) : Bool := decide (r.toNat < m.rows)

/-- A row and a column index within bounds: not (`row >= rows` or `col >= cols`) (R106, R108). -/
def BitMatrix.hasEntry (m : BitMatrix) (r c : Imm7) : Bool :=
  decide (r.toNat < m.rows) && decide (c.toNat < m.cols)

/-- Both dimensions at most 64 (R101, R102). -/
def dimsLegal (rows cols : Imm7) : Bool :=
  decide (rows.toNat ≤ Config.wordWidth) && decide (cols.toNat ≤ Config.wordWidth)

/-- A channel width at most 64 and a threshold at most `2^32` (R77 (c), R193). -/
def channelLegal (width : Imm7) (p : Word) : Bool :=
  decide (width.toNat ≤ Config.wordWidth) && decide (p.toNat ≤ 2 ^ 32)

/-- A CSR number in 0..4 (R77 (b)). -/
def csrLegal (n : Imm7) : Bool := decide (n.toNat ≤ 4)

end Sys2Proof.Machine
end

