-- ==== Sys2Proof/Machine/Ops.lean ====
section
/-!
DEFINITION. The named operations over the state: writing a register, the table, the generator; drawing a free
value; responding (spec 30_encoding.md R71); raising an error, the one way into the fault state
(60_exceptions.md R244), and reset, the one way out of it (R250, 70_reset_and_hazards.md R270); what every
command does with its outcome (R244, R245); the port transfers (R70, R71).
-/

namespace Sys2Proof.Machine

open Sys2Proof

/-- `M[j] <- m`: the whole record is replaced (R9). -/
def State.setMat (s : State) (j : MReg) (m : BitMatrix) : State := { s with mats := s.mats.set j m }

/-- `T <- t; tn <- n; tbits <- bits; tbuilt <- 1` (R150). -/
def State.setTable (s : State) (t : Table) (n bits : Nat) : State :=
  { s with tab := t, tn := n, tbits := bits, tbuilt := true }

/-- `rng <- g` (R27). -/
def State.setRng (s : State) (g : Config.RngState) : State := { s with rng := g }

/-- The counter of free values moved on by one draw (log entry 6). -/
def State.drew (s : State) : State := { s with free := s.free + 1 }

/-- The response presented: `err` is the fault field, `rdata` is `x` (R71). -/
def State.respond (s : State) (x : Word) : State := { s with resp := some { err := s.errCode, rdata := x } }

/-- A raise outside the fault state: `err <- c; ecmd <- inst`, response `(c, 0)`, nothing else (R244). -/
def State.raise (s : State) (k : ErrKind) : State :=
  State.respond { s with err := some k, ecmd := s.inst } 0

/-- What a command's rule gives: the error it raises, or the state it writes and its `rdata`. -/
abbrev Answer := Except ErrKind (State × Word)

/-- How every command ends (R244, R245, R246): in the fault state it is answered with the recorded code and
`rdata` 0, and changes nothing; else it raises, with none of its writes, or its writes stand and it responds. -/
def State.perform (s : State) (a : Answer) : Host.Outcome State Fault Refusal :=
  if s.err.isSome then .next (s.respond 0)
  else
    match a with
    | .error k => .next (s.raise k)
    | .ok (t, x) => .next (t.respond x)

/-- Reset (R270): every piece of the block's state takes the value of R39, a pending response is dropped, and
`rng` is a new free value. SMAX is a constant (R35); the host's lists are the host's. -/
def State.applyReset (s : State) : State :=
  { State.reset with
    rng := Config.rngAtReset s.free
    smax := s.smax
    inputs := s.inputs
    taken := s.taken
    free := s.free + 1 }

/-- The response handed over to the host; nothing if none is presented (R71, R292). -/
def State.handOver (s : State) : State :=
  match s.resp with
  | none => s
  | some r => { s with resp := none, taken := s.taken ++ [r] }

/-- What happens next at the ports, with what the host has left to do after it; none when nothing does. A command
presented while the block is not ready is held, not accepted (R70): it stays the first of the list, and the taking
of a response or the reset that stands behind it happens (log entry 3). With neither behind it nothing can happen
any more: "a host that never takes a response stalls the block for good" (R292). -/
def State.nextEvent (s : State) : Option (PortEvent × List PortEvent) :=
  match s.inputs with
  | [] => none
  | .rst :: rest => some (.rst, rest)
  | .takeResponse :: rest => some (.takeResponse, rest)
  | .command c :: rest =>
    if s.cmdReady then some (.command c, rest)
    else
      match rest with
      | [] => none
      | .command _ :: _ => none
      | .takeResponse :: rest' => some (.takeResponse, .command c :: rest')
      | .rst :: rest' => some (.rst, .command c :: rest')

/-- The host's next event done with. -/
def State.setInputs (s : State) (rest : List PortEvent) : State := { s with inputs := rest }

/-- A command accepted: its three values are the command being executed (R70). -/
def State.accept (s : State) (c : Command) : State := { s with cmd := c }

/-- A command presented ahead of everything else the host will do, on an idle port. -/
def State.presentFirst (s : State) (c : Command) : State :=
  { s with inputs := .command c :: s.inputs, resp := none }

end Sys2Proof.Machine
end

