-- ==== Sys2Proof/Machine/BitMatrixCommands.lean ====
section
/-!
DEFINITION. The BitMatrix commands (spec 40_bitmatrix.md R101 to R120).
-/

namespace Sys2Proof.Machine

open Sys2Proof

/-- MZERO (R101). -/
def execMzero (md : MReg) (rows cols : Imm7) (s : State) : Host.Outcome State Fault Refusal :=
  s.perform <|
    if dimsLegal rows cols then .ok (s.setMat md (BitMatrix.zero rows.toNat cols.toNat), 0)
    else .error .dimensionError

/-- MIDENT (R102). -/
def execMident (md : MReg) (rows cols : Imm7) (s : State) : Host.Outcome State Fault Refusal :=
  s.perform <|
    if dimsLegal rows cols then .ok (s.setMat md (BitMatrix.ident rows.toNat cols.toNat), 0)
    else .error .dimensionError

/-- MDIM (R103). -/
def execMdim (ma : MReg) (s : State) : Host.Outcome State Fault Refusal :=
  s.perform (.ok (s, packDims (s.mat ma).rows (s.mat ma).cols))

/-- GET (R106). -/
def execGet (ma : MReg) (row col : Imm7) (s : State) : Host.Outcome State Fault Refusal :=
  s.perform <|
    if (s.mat ma).hasEntry row col then
      .ok (s, if (s.mat ma).bit row.toNat col.toNat then 1 else 0)
    else .error .indexError

/-- SET (R108). -/
def execSet (md : MReg) (row col : Imm7) (b : Bool) (s : State) : Host.Outcome State Fault Refusal :=
  s.perform <|
    if (s.mat md).hasEntry row col then
      .ok (s.setMat md ((s.mat md).setBit row.toNat col.toNat b), 0)
    else .error .indexError

/-- ROWRD (R110). -/
def execRowrd (ma : MReg) (row : Imm7) (s : State) : Host.Outcome State Fault Refusal :=
  s.perform <|
    if (s.mat ma).hasRow row then .ok (s, (s.mat ma).row row.toNat) else .error .indexError

/-- ROWWR (R112): a row index out of range and a 1 at or above `cols` both raise `IndexError`. -/
def execRowwr (md : MReg) (row : Imm7) (s : State) : Host.Outcome State Fault Refusal :=
  s.perform <|
    if (s.mat md).hasRow row then
      if overWide s.op1 (s.mat md).cols then .error .indexError
      else .ok (s.setMat md ((s.mat md).setRow row.toNat s.op1), 0)
    else .error .indexError

/-- MULR (R114); the result of an over-wide vector is a free value (R115, U1). -/
def execMulr (ma : MReg) (s : State) : Host.Outcome State Fault Refusal :=
  s.perform <|
    if overWide s.op1 (s.mat ma).cols then .ok (s.drew, Config.anyWord s.free)
    else .ok (s, (s.mat ma).mulr s.op1)

/-- EXTRACT (R116): the offsets are op1 and op2, whole unsigned integers. -/
def execExtract (md ma : MReg) (rows cols : Imm7) (s : State) : Host.Outcome State Fault Refusal :=
  s.perform <|
    if (s.mat ma).hasRegion rows.toNat cols.toNat s.op1.toNat s.op2.toNat then
      .ok (s.setMat md ((s.mat ma).extract rows.toNat cols.toNat s.op1.toNat s.op2.toNat), 0)
    else .error .dimensionError

/-- APPEND (R118). -/
def execAppend (md ma mb : MReg) (s : State) : Host.Outcome State Fault Refusal :=
  s.perform <|
    if (s.mat ma).rows = (s.mat mb).rows ∧ (s.mat ma).cols + (s.mat mb).cols ≤ Config.wordWidth then
      .ok (s.setMat md ((s.mat ma).append (s.mat mb)), 0)
    else .error .dimensionError

/-- TRANSP (R120). -/
def execTransp (md ma : MReg) (s : State) : Host.Outcome State Fault Refusal :=
  s.perform (.ok (s.setMat md (s.mat ma).transpose, 0))

end Sys2Proof.Machine
end

