-- ==== Sys2Proof/Machine/Channel.lean ====
section
/-!
DEFINITION. The Channel commands CHSEND and CHSEED (spec 44_channel.md).
-/

namespace Sys2Proof.Machine

open Sys2Proof

/-- The loop of R190 over the positions still to visit: one draw per position, always; bit `i` is toggled
when the draw is below the threshold `p` (R193). -/
def channelPass (p : Word) : List Nat → Word → Config.RngState → Word × Config.RngState
  | [], v, g => (v, g)
  | i :: is, v, g =>
    channelPass p is (if (Config.rngNext g).1.toNat < p.toNat then v ^^^ oneAt i else v) (Config.rngNext g).2

/-- CHSEND (R190); a width above 64 or a threshold above `2^32` raises `IllegalCommand` before any draw
(R77 (c); log entry 13). -/
def execChsend (width : Imm7) (s : State) : Host.Outcome State Fault Refusal :=
  s.perform <|
    if channelLegal width s.op2 then
      .ok (s.setRng (channelPass s.op2 (List.range width.toNat) s.op1 s.rng).2,
        (channelPass s.op2 (List.range width.toNat) s.op1 s.rng).1)
    else .error .illegalCommand

/-- CHSEED (R192). -/
def execChseed (s : State) : Host.Outcome State Fault Refusal :=
  s.perform (.ok (s.setRng (Config.rngSeed s.op1), 0))

end Sys2Proof.Machine
end

