-- ==== Sys2Proof/Machine/CodeBuilder.lean ====
section
/-!
DEFINITION. The CodeBuilder command DERIVEH (spec 41_codebuilder.md).
-/

namespace Sys2Proof.Machine

open Sys2Proof

/-- DERIVEH (R140): the shape is checked (C1), standard form is not (R141). -/
def execDeriveh (md ma : MReg) (s : State) : Host.Outcome State Fault Refusal :=
  s.perform <|
    if (s.mat ma).rows = 0 ∨ (s.mat ma).cols < (s.mat ma).rows then .error .invalidGeneratorShape
    else .ok (s.setMat md (s.mat ma).deriveControl, 0)

end Sys2Proof.Machine
end

