-- ==== Sys2Proof/Machine/Codec.lean ====
section
/-!
DEFINITION. The Codec command DECODE (spec 43_codec.md). ENCODE and SYND are spellings of MULR (R171, R173).
-/

namespace Sys2Proof.Machine

open Sys2Proof

/-- DECODE (R170): more rows than columns raise `InvalidControlShape` (R177); the result of an over-wide
vector is a free value (R175, U2). -/
def execDecode (ma : MReg) (s : State) : Host.Outcome State Fault Refusal :=
  s.perform <|
    if (s.mat ma).cols < (s.mat ma).rows then .error .invalidControlShape
    else if overWide s.op1 (s.mat ma).cols then .ok (s.drew, Config.anyWord s.free)
    else .ok (s, decodeVector (s.mat ma) s.tab s.op1)

end Sys2Proof.Machine
end

