-- ==== Sys2Proof/Machine/RowReduce.lean ====
section
/-!
DEFINITION. The row-operation and row-reduce commands (spec 45_row_reduce.md).
-/

namespace Sys2Proof.Machine

open Sys2Proof

/-- ROWXOR (R210). -/
def execRowxor (md : MReg) (dst src : Imm7) (s : State) : Host.Outcome State Fault Refusal :=
  s.perform <|
    if (s.mat md).hasRow dst && (s.mat md).hasRow src then
      .ok (s.setMat md ((s.mat md).rowXor dst.toNat src.toNat), 0)
    else .error .indexError

/-- ROWSWAP (R212). -/
def execRowswap (md : MReg) (r1 r2 : Imm7) (s : State) : Host.Outcome State Fault Refusal :=
  s.perform <|
    if (s.mat md).hasRow r1 && (s.mat md).hasRow r2 then
      .ok (s.setMat md ((s.mat md).rowSwap r1.toNat r2.toNat), 0)
    else .error .indexError

/-- RREF (R214): `rdata` is `std << 7 | rank`. -/
def execRref (md ma : MReg) (s : State) : Host.Outcome State Fault Refusal :=
  s.perform <|
    .ok (s.setMat md (s.mat ma).rref.1,
      packFlag (stdForm (s.mat ma).rows (s.mat ma).rref.2) (s.mat ma).rref.2.length)

end Sys2Proof.Machine
end

