-- ==== Sys2Proof/Machine/SyndromeTable.lean ====
section
/-!
DEFINITION. The SyndromeTable commands TBUILD and TLOOKUP (spec 42_syndrome_table.md).
-/

namespace Sys2Proof.Machine

open Sys2Proof

/-- TBUILD (R150); more rows than SMAX raise `CapacityError` (R155). -/
def execTbuild (ma : MReg) (s : State) : Host.Outcome State Fault Refusal :=
  s.perform <|
    if s.smax.val < (s.mat ma).rows then .error .capacityError
    else
      .ok (s.setTable (buildTable (s.mat ma)) (s.mat ma).cols (s.mat ma).rows,
        BitVec.ofNat 64 (tableCount (buildTable (s.mat ma))))

/-- TLOOKUP (R156): `present << 7 | weight`, 0 for an absent syndrome. -/
def execTlookup (s : State) : Host.Outcome State Fault Refusal :=
  s.perform (.ok (s, packFlag (tableHas s.tab s.op1) (tableWeight s.tab s.op1)))

end Sys2Proof.Machine
end

