-- ==== Sys2Proof/Machine/System.lean ====
section
/-!
DEFINITION. The system commands NOP and RDCSR (spec 46_system.md).
-/

namespace Sys2Proof.Machine

open Sys2Proof

/-- NOP (R230). -/
def execNop (s : State) : Host.Outcome State Fault Refusal := s.perform (.ok (s, 0))

/-- RDCSR (R232): the one command that executes in the fault state too (R245). A number above 4 is no legal
word (R77 (b)); the decoder stops it, and so does the meaning (log entry 13). -/
def execRdcsr (n : Imm7) (s : State) : Host.Outcome State Fault Refusal :=
  if csrLegal n then .next (s.respond (s.csr n.toNat)) else s.perform (.error .illegalCommand)

end Sys2Proof.Machine
end

