-- ==== Sys2Proof/Machine/Dispatch.lean ====
section
/-!
DEFINITION. One arm per command: the call of its meaning (spec 30_encoding.md R73, R80 last line).
-/

namespace Sys2Proof.Machine

open Sys2Proof

/-- The meaning of every command. -/
def exec (i : Instr) (s : State) : Host.Outcome State Fault Refusal :=
  match i with
  | .nop => Sys2Proof.Machine.execNop s
  | .rdcsr n => Sys2Proof.Machine.execRdcsr n s
  | .mzero md rows cols => Sys2Proof.Machine.execMzero md rows cols s
  | .mident md rows cols => Sys2Proof.Machine.execMident md rows cols s
  | .mdim ma => Sys2Proof.Machine.execMdim ma s
  | .get ma row col => Sys2Proof.Machine.execGet ma row col s
  | .set md row col b => Sys2Proof.Machine.execSet md row col b s
  | .rowrd ma row => Sys2Proof.Machine.execRowrd ma row s
  | .rowwr md row => Sys2Proof.Machine.execRowwr md row s
  | .mulr ma => Sys2Proof.Machine.execMulr ma s
  | .extract md ma rows cols => Sys2Proof.Machine.execExtract md ma rows cols s
  | .append md ma mb => Sys2Proof.Machine.execAppend md ma mb s
  | .transp md ma => Sys2Proof.Machine.execTransp md ma s
  | .rowxor md dst src => Sys2Proof.Machine.execRowxor md dst src s
  | .rowswap md r1 r2 => Sys2Proof.Machine.execRowswap md r1 r2 s
  | .rref md ma => Sys2Proof.Machine.execRref md ma s
  | .deriveh md ma => Sys2Proof.Machine.execDeriveh md ma s
  | .tbuild ma => Sys2Proof.Machine.execTbuild ma s
  | .tlookup => Sys2Proof.Machine.execTlookup s
  | .decode ma => Sys2Proof.Machine.execDecode ma s
  | .chsend width => Sys2Proof.Machine.execChsend width s
  | .chseed => Sys2Proof.Machine.execChseed s

end Sys2Proof.Machine
end

