-- ==== Sys2Proof/Machine/Step.lean ====
section
/-!
DEFINITION. One step: the next event at the ports (spec 30_encoding.md R70, R71, R80;
70_reset_and_hazards.md R270, R292, R293). Log entries 1 to 3 say what a step is and what it leaves out.
-/

namespace Sys2Proof.Machine

open Sys2Proof

/-- The command being executed, decoded and run (R80): an illegal word raises `IllegalCommand`. -/
def runCommand (s : State) : Host.Outcome State Fault Refusal :=
  match decodeWord s.inst with
  | .ok i => exec i s
  | .error _ => s.perform (.error .illegalCommand)

/-- The next event at the ports. With none the block waits: it is idle, or the host stalls it by holding a command
and taking no response (R292). -/
def step (s : State) : Host.Outcome State Fault Refusal :=
  match s.nextEvent with
  | none => .next s
  | some (.rst, rest) => .next (s.setInputs rest).applyReset
  | some (.takeResponse, rest) => .next (s.setInputs rest).handOver
  | some (.command c, rest) => runCommand ((s.setInputs rest).accept c)

/-- `s` with the command of these bits presented next on an idle port (log entry 1). -/
def State.withFetchWord (s : State) (nbits w : Nat) : State := s.presentFirst (commandOfTableWord nbits w)

end Sys2Proof.Machine
end

