-- ==== Sys2Proof/Safety.lean ====
section
/-!
DEFINITION. The terms claims are stated in: the invariant of the machine (spec 10_state.md R21, R25, R26, R28,
R34; 30_encoding.md R71), and the plain mathematics the rules speak of (sums over GF(2), Hamming weight, row
space, standard form, the sequence of draws).
-/

namespace Sys2Proof.Machine

open Sys2Proof

/-- R21: both dimensions at most 64, every row word zero outside its `cols` bits. -/
abbrev BitMatrix.wf (m : BitMatrix) : Prop := m.rows ≤ 64 ∧ m.cols ≤ 64 ∧ ∀ x ∈ m.w, x >>> m.cols = 0

/-- The canonical form of a table: syndromes strictly rising, so each is a key once (R25). -/
abbrev tableSorted (t : Table) : Prop := t.Pairwise fun a b => a.1.toNat < b.1.toNat

/-- R21 for all eight registers. -/
abbrev State.matsOk (s : State) : Prop := ∀ j : Fin 8, (s.mat j).wf

/-- The table's form and what its bookkeeping bounds: syndromes of `tbits` bits, weights up to `tn` (R25, R26),
at most `2^tbits` of them, `tbits` at most SMAX (R34). -/
abbrev State.tableOk (s : State) : Prop :=
  tableSorted s.tab ∧ (∀ p ∈ s.tab, p.1.toNat < 2 ^ s.tbits ∧ p.2 ≤ s.tn) ∧ tableCount s.tab ≤ 2 ^ s.tbits ∧
    s.tn ≤ 64 ∧ s.tbits ≤ s.smax.val

/-- Before the first completed build the table and its bookkeeping are as reset left them; after it the entry
for syndrome 0 has weight 0 (R26, R39, R153). -/
abbrev State.builtOk (s : State) : Prop :=
  if s.tbuilt then tableFind s.tab 0 = some 0 else s.tab = [] ∧ s.tn = 0 ∧ s.tbits = 0

/-- `ecmd` is 0 outside the fault state (R28), and a response carries the fault field (R71). -/
abbrev State.faultOk (s : State) : Prop :=
  (s.err = none → s.ecmd = 0) ∧ s.resp.all (fun r => r.err == s.errCode) = true

/-- The invariant of the machine. -/
abbrev State.Inv (s : State) : Prop := s.matsOk ∧ s.tableOk ∧ s.builtOk ∧ s.faultOk

/-- The sum over GF(2) of `f 0, ..., f (n-1)`. -/
def xorSum : Nat → (Nat → Bool) → Bool
  | 0, _ => false
  | n + 1, f => xorSum n f ^^ f n

/-- The Hamming weight: the count of set bits (R8). -/
def hammingWeight (x : Word) : Nat := (List.range 64).countP fun p => x.getLsbD p

/-- The row space of a list of row words: all sums of rows (R214). -/
inductive InRowSpace (ws : List Word) : Word → Prop where
  /-- The empty sum. -/
  | zero : InRowSpace ws 0
  /-- A sum with one more row. -/
  | add (x y : Word) : InRowSpace ws x → y ∈ ws → InRowSpace ws (x ^^^ y)

/-- Standard form `[I | A]` with `k = rows`, `n = cols` (R11, R214). -/
def BitMatrix.standardForm (g : BitMatrix) : Prop :=
  1 ≤ g.rows ∧ g.rows ≤ g.cols ∧ ∀ r c, r < g.rows → c < g.rows → g.bit r c = decide (r = c)

/-- `w` is the least weight of a `cols`-bit vector whose product with `h` is `y` (R153). -/
def BitMatrix.leaderWeight (h : BitMatrix) (y : Word) (w : Nat) : Prop :=
  (∃ e : Word, e >>> h.cols = 0 ∧ h.mulr e = y ∧ hammingWeight e = w) ∧
    ∀ e : Word, e >>> h.cols = 0 → h.mulr e = y → w ≤ hammingWeight e

/-- The generator's state after `n` draws (R27). -/
def rngAfter : Nat → Config.RngState → Config.RngState
  | 0, g => g
  | n + 1, g => rngAfter n (Config.rngNext g).2

/-- Draw number `i` from the generator state `g` (R190). -/
def drawAt (g : Config.RngState) (i : Nat) : Nat := (Config.rngNext (rngAfter i g)).1.toNat

/-- The matrix register a command writes (R24). -/
def writesMat : Instr → Option MReg
  | .nop => none
  | .rdcsr _ => none
  | .mzero md _ _ => some md
  | .mident md _ _ => some md
  | .mdim _ => none
  | .get _ _ _ => none
  | .set md _ _ _ => some md
  | .rowrd _ _ => none
  | .rowwr md _ => some md
  | .mulr _ => none
  | .extract md _ _ _ => some md
  | .append md _ _ => some md
  | .transp md _ => some md
  | .rowxor md _ _ => some md
  | .rowswap md _ _ => some md
  | .rref md _ => some md
  | .deriveh md _ => some md
  | .tbuild _ => none
  | .tlookup => none
  | .decode _ => none
  | .chsend _ => none
  | .chseed => none

/-- The error kind a command can raise, none for those that raise none (R240). `RDCSR` and `CHSEND` raise
`IllegalCommand` for their operand ranges (R77). -/
def raisesKind : Instr → Option ErrKind
  | .nop => none
  | .rdcsr _ => some .illegalCommand
  | .mzero _ _ _ => some .dimensionError
  | .mident _ _ _ => some .dimensionError
  | .mdim _ => none
  | .get _ _ _ => some .indexError
  | .set _ _ _ _ => some .indexError
  | .rowrd _ _ => some .indexError
  | .rowwr _ _ => some .indexError
  | .mulr _ => none
  | .extract _ _ _ _ => some .dimensionError
  | .append _ _ _ => some .dimensionError
  | .transp _ _ => none
  | .rowxor _ _ _ => some .indexError
  | .rowswap _ _ _ => some .indexError
  | .rref _ _ => none
  | .deriveh _ _ => some .invalidGeneratorShape
  | .tbuild _ => some .capacityError
  | .tlookup => none
  | .decode _ => some .invalidControlShape
  | .chsend _ => some .illegalCommand
  | .chseed => none

/-- Whether a command reads op1 (R76). -/
def readsOp1 : Instr → Bool
  | .nop => false
  | .rdcsr _ => false
  | .mzero _ _ _ => false
  | .mident _ _ _ => false
  | .mdim _ => false
  | .get _ _ _ => false
  | .set _ _ _ _ => false
  | .rowrd _ _ => false
  | .rowwr _ _ => true
  | .mulr _ => true
  | .extract _ _ _ _ => true
  | .append _ _ _ => false
  | .transp _ _ => false
  | .rowxor _ _ _ => false
  | .rowswap _ _ _ => false
  | .rref _ _ => false
  | .deriveh _ _ => false
  | .tbuild _ => false
  | .tlookup => true
  | .decode _ => true
  | .chsend _ => true
  | .chseed => true

/-- Whether a command reads op2 (R76). -/
def readsOp2 : Instr → Bool
  | .nop => false
  | .rdcsr _ => false
  | .mzero _ _ _ => false
  | .mident _ _ _ => false
  | .mdim _ => false
  | .get _ _ _ => false
  | .set _ _ _ _ => false
  | .rowrd _ _ => false
  | .rowwr _ _ => false
  | .mulr _ => false
  | .extract _ _ _ _ => true
  | .append _ _ _ => false
  | .transp _ _ => false
  | .rowxor _ _ _ => false
  | .rowswap _ _ _ => false
  | .rref _ _ => false
  | .deriveh _ _ => false
  | .tbuild _ => false
  | .tlookup => false
  | .decode _ => false
  | .chsend _ => true
  | .chseed => false

end Sys2Proof.Machine
end

