-- ==== Sys2Proof/Certificates/Slice0/Obligations.lean ====
section
/-!
DEFINITION. The statements for the provers. Each says which rules of spec/ it formalises. Register results are
equations of whole states, so each is its own frame: `{ s with ... }` names everything that may change.
A hypothesis `(s.mat ma).wf` is part of the invariant that O54 and O55 state (spec R21).
-/

open Sys2Proof Sys2Proof.Machine

/-! ## Encoding -/

/-- R72 to R74, R80: no bit of an encoding is dropped, for every command and every value of its operands. -/
def Obligations.DecodeOfEncodeIsTheInstruction : Prop :=
  ∀ i : Instr, i.wellFormed = true → decodeWord (encode i) = .ok i

/-- R73, R75: every word that decodes is the one encoding of what it decodes to. -/
def Obligations.EncodeOfDecodeIsTheWord : Prop :=
  ∀ (x : CommandWord) (i : Instr), decodeWord x = .ok i → encode i = x ∧ i.wellFormed = true

/-- R73, R77: a word is the command of a row exactly when it matches the row, but for the ranges of R77 (b) and
(c). -/
def Obligations.WordIsTheCommandOfTheRowItMatches : Prop :=
  ∀ (x : CommandWord) (row : Opcode),
    (∃ i, decodeWord x = .ok i ∧ i.opcode = row) ↔
      x &&& row.maskWord = row.matchWord ∧ (row = .rdcsr → (x &&& 0x7F#32).toNat ≤ 4) ∧
        (row = .chsend → (x &&& 0x7F#32).toNat ≤ 64)

/-- R73: the rows of the opcode map are disjoint. -/
def Obligations.NoWordMatchesTwoRows : Prop :=
  ∀ (x : CommandWord) (a b : Opcode), x &&& a.maskWord = a.matchWord → x &&& b.maskWord = b.matchWord → a = b

/-- Words of 30_encoding.md R78 and 95_test_vectors.md, one per family and two illegal ones. -/
def Obligations.SampleWordsDecode : Prop :=
  decodeWord 0x20000207#32 = .ok (.mzero 0 4 7) ∧ decodeWord 0x30004105#32 = .ok (.set 0 2 5 true) ∧
    decodeWord 0x40800203#32 = .ok (.extract 1 0 4 3) ∧ decodeWord 0x45940000#32 = .ok (.append 3 1 2) ∧
    decodeWord 0x34101F80#32 = .ok (.rowrd 1 63) ∧ decodeWord 0x68100000#32 = .ok (.rref 0 1) ∧
    decodeWord 0x81800000#32 = .ok (.deriveh 3 0) ∧ decodeWord 0xA0300000#32 = .ok (.tbuild 3) ∧
    decodeWord 0xC0300000#32 = .ok (.decode 3) ∧ decodeWord 0xE0000007#32 = .ok (.chsend 7) ∧
    decodeWord 0x04000004#32 = .ok (.rdcsr 4) ∧ decodeWord 0x08000000#32 = .error .reservedOpcode ∧
    decodeWord 0x3C208000#32 = .error .unusedField ∧ decodeWord 0x04000005#32 = .error .immediateRange

/-! ## The step, the ports, reset -/

/-- R80: on an idle port the presented command, if its word decodes, is accepted and run. -/
def Obligations.StepRunsTheDecodedCommand : Prop :=
  ∀ (s : State) (c : Command) (rest : List PortEvent) (i : Instr),
    s.inputs = .command c :: rest → s.resp = none → decodeWord c.inst = .ok i →
      step s = exec i { s with inputs := rest, cmd := c }

/-- R75, R77, R80, R244: exactly the malformed commands raise `IllegalCommand` at decode; every other one is
run. A command is legal when its word matches a row, an `RDCSR` number is at most 4, a `CHSEND` width at most 64
and its threshold at most `2^32`. -/
def Obligations.MalformedCommandsRaiseIllegalCommand : Prop :=
  ∀ (s : State) (c : Command) (rest : List PortEvent),
    s.inputs = .command c :: rest → s.resp = none → s.err = none →
      (¬(∃ row : Opcode, c.inst &&& row.maskWord = row.matchWord ∧
            (row = .rdcsr → (c.inst &&& 0x7F#32).toNat ≤ 4) ∧
            (row = .chsend → (c.inst &&& 0x7F#32).toNat ≤ 64 ∧ c.op2.toNat ≤ 2 ^ 32)) →
          step s = .next { s with inputs := rest, cmd := c, err := some .illegalCommand, ecmd := c.inst,
                                  resp := some { err := 4, rdata := 0 } }) ∧
        ((∃ row : Opcode, c.inst &&& row.maskWord = row.matchWord ∧
            (row = .rdcsr → (c.inst &&& 0x7F#32).toNat ≤ 4) ∧
            (row = .chsend → (c.inst &&& 0x7F#32).toNat ≤ 64 ∧ c.op2.toNat ≤ 2 ^ 32)) →
          ∃ i, decodeWord c.inst = .ok i ∧ step s = exec i { s with inputs := rest, cmd := c } ∧
            ∀ t, step s = .next t → t.err ≠ some .illegalCommand)

/-- R70, R71, R292: a command presented while a response is pending is held, not accepted: the host's taking of the
response happens first, and while there is none the block does nothing; taking a response, with and without one
presented; the idle block waits. That the taking stands behind the held command in the host's list is the model's
choice (log entry 3). -/
def Obligations.ResponseIsHandedOverBeforeTheNextCommand : Prop :=
  (∀ (s : State) (c : Command) (rest : List PortEvent) (r : Response),
      s.inputs = .command c :: .takeResponse :: rest → s.resp = some r →
        step s = .next { s with inputs := .command c :: rest, resp := none, taken := s.taken ++ [r] }) ∧
    (∀ (s : State) (c d : Command) (rest : List PortEvent) (r : Response),
      s.inputs = [.command c] ∨ s.inputs = .command c :: .command d :: rest → s.resp = some r →
        step s = .next s) ∧
    (∀ (s : State) (rest : List PortEvent) (r : Response), s.inputs = .takeResponse :: rest → s.resp = some r →
        step s = .next { s with inputs := rest, resp := none, taken := s.taken ++ [r] }) ∧
    (∀ (s : State) (rest : List PortEvent), s.inputs = .takeResponse :: rest → s.resp = none →
        step s = .next { s with inputs := rest }) ∧
    ∀ s : State, s.inputs = [] → step s = .next s

/-- R270, R39: a reset gives every piece of the block's state its reset value, from every state, and drops a
pending response, also while the host holds a command the block has not accepted (log entry 3). `g`, `c` and `n`
are `rng` (unspecified), the idle port's wires (log entry 8) and the model's counter; SMAX is constant (R35). -/
def Obligations.ResetGivesEveryPieceOfStateItsResetValue : Prop :=
  ∀ (s : State) (rest : List PortEvent),
    (s.inputs = .rst :: rest ∨
      ∃ d later, s.inputs = .command d :: .rst :: later ∧ s.resp ≠ none ∧ rest = .command d :: later) →
    ∃ g c n, step s = .next
      { mats := Vector.replicate 8 { cols := 0, w := [] }, tab := [], tn := 0, tbits := 0, tbuilt := false,
        rng := g, err := none, ecmd := 0, smax := s.smax, cmd := c, resp := none, inputs := rest,
        taken := s.taken, free := n }

/-- R290 and 93_implementation_defined.md part 1: nothing is stuck; in every state the step answers a next
state. -/
def Obligations.EveryStepAnswersANextState : Prop := ∀ s : State, ∃ t, step s = .next t

/-- R71: a command accepted is answered by exactly one response, whose `err` is the fault field after it; no
other response is touched. -/
def Obligations.EveryAcceptedCommandGetsItsResponse : Prop :=
  ∀ (s t : State) (c : Command) (rest : List PortEvent),
    s.inputs = .command c :: rest → s.resp = none → step s = .next t →
      (∃ x, t.resp = some { err := t.errCode, rdata := x }) ∧ t.taken = s.taken ∧ t.inputs = rest ∧ t.cmd = c

/-! ## The fault state -/

/-- R245: in the fault state every command is answered with the recorded code and changes nothing; `rdata` is 0
but for a well-formed `RDCSR`. -/
def Obligations.FaultStateAnswersWithoutExecuting : Prop :=
  ∀ (s : State) (c : Command) (rest : List PortEvent) (k : ErrKind),
    s.inputs = .command c :: rest → s.resp = none → s.err = some k →
      step s = .next
        { s with
          inputs := rest
          cmd := c
          resp := some
            { err := k.code
              rdata :=
                if c.inst &&& 0xFFFFFF80#32 = 0x04000000#32 ∧ (c.inst &&& 0x7F#32).toNat ≤ 4 then
                  s.csr (c.inst &&& 0x7F#32).toNat
                else 0 } }

/-- R250, R286: only reset changes a recorded error. `nextEvent` is what happens next at the ports (log entry 3). -/
def Obligations.FaultStateIsLeftOnlyByReset : Prop :=
  ∀ s t : State, step s = .next t → s.err ≠ none → (t.err ≠ s.err ∨ t.ecmd ≠ s.ecmd) →
    ∃ rest, s.nextEvent = some (.rst, rest)

/-- R244, R10: a command that raises performs none of its writes; only `err`, `ecmd` and the response change. -/
def Obligations.RaiseAbortsTheCommand : Prop :=
  ∀ (i : Instr) (s t : State) (k : ErrKind), s.err = none → exec i s = .next t → t.err = some k →
    t = { s with err := some k, ecmd := s.cmd.inst, resp := some { err := k.code, rdata := 0 } }

/-- R240: each command raises no kind but its own, and the codes are the table's. -/
def Obligations.EachCommandRaisesOnlyItsOwnKind : Prop :=
  (∀ (i : Instr) (s t : State) (k : ErrKind), s.err = none → exec i s = .next t → t.err = some k →
      raisesKind i = some k) ∧
    (ErrKind.indexError.code = 1 ∧ ErrKind.dimensionError.code = 2 ∧ ErrKind.invalidGeneratorShape.code = 3 ∧
      ErrKind.illegalCommand.code = 4 ∧ ErrKind.capacityError.code = 5 ∧ ErrKind.invalidControlShape.code = 6)

/-- R71, R248: the `fault` output is high exactly in the fault state. -/
def Obligations.FaultOutputIsHighExactlyInTheFaultState : Prop :=
  ∀ s : State, s.faultPin = true ↔ s.err ≠ none

/-! ## What commands write -/

/-- R24, R37, R292: a command changes no matrix register but its destination, and never the host's lists, the
command port's operands or SMAX. -/
def Obligations.CommandsWriteOnlyTheirDestinationRegister : Prop :=
  ∀ (i : Instr) (s t : State), exec i s = .next t →
    (∀ j : MReg, writesMat i ≠ some j → t.mat j = s.mat j) ∧ t.smax = s.smax ∧ t.cmd = s.cmd ∧
      t.inputs = s.inputs ∧ t.taken = s.taken

/-- R25, R26: the table and its bookkeeping are written only by `TBUILD` and by reset. `nextEvent` is what happens
next at the ports (log entry 3), here and below. -/
def Obligations.TableIsWrittenOnlyByTbuildAndReset : Prop :=
  ∀ s t : State, step s = .next t →
    (t.tab ≠ s.tab ∨ t.tn ≠ s.tn ∨ t.tbits ≠ s.tbits ∨ t.tbuilt ≠ s.tbuilt) →
      ∃ e rest, s.nextEvent = some (e, rest) ∧
        (e = .rst ∨ ∃ c ma, e = .command c ∧ decodeWord c.inst = .ok (.tbuild ma))

/-- R27: the generator state is written only by `CHSEND`, `CHSEED` and reset. -/
def Obligations.GeneratorIsWrittenOnlyByTheChannelAndReset : Prop :=
  ∀ s t : State, step s = .next t → t.rng ≠ s.rng →
    ∃ e rest, s.nextEvent = some (e, rest) ∧
      (e = .rst ∨ ∃ c, e = .command c ∧
        ((∃ width, decodeWord c.inst = .ok (.chsend width)) ∨ decodeWord c.inst = .ok .chseed))

/-- R28, R35: outside the fault state `err` and `ecmd` change only together, by a raise; CONFIG never changes. -/
def Obligations.FaultFieldsAreWrittenOnlyByARaise : Prop :=
  ∀ s t : State, step s = .next t →
    t.csrConfig = s.csrConfig ∧
      (s.err = none → (t.err ≠ s.err ∨ t.ecmd ≠ s.ecmd) →
        (∃ rest, s.nextEvent = some (.rst, rest)) ∨
          ∃ c rest k, s.nextEvent = some (.command c, rest) ∧ t.err = some k ∧ t.ecmd = c.inst ∧
            t.resp = some { err := k.code, rdata := 0 })

/-- R76: an operand word a command does not read has no effect: with any other value there, the command ends in
the same state but for the operand itself. For `MULR` and `DECODE` of an over-wide op1 (R115, R175) it says that the
two runs draw one unspecified `rdata`: that is the model's choice, not the spec's, and rests on log entry 6, by
which a draw is fixed by the counter `free`. -/
def Obligations.UnreadOperandsHaveNoEffect : Prop :=
  ∀ (i : Instr) (s t : State) (a b : Word), (readsOp1 i = true → a = s.cmd.op1) →
    (readsOp2 i = true → b = s.cmd.op2) → exec i s = .next t →
      exec i { s with cmd := { s.cmd with op1 := a, op2 := b } } = .next
        { t with cmd := { s.cmd with op1 := a, op2 := b } }

/-! ## The system commands -/

/-- R230: `NOP` reads and writes nothing and is answered `rdata` 0, in the fault state too (R245); its one word
is 0. -/
def Obligations.NopDoesNothing : Prop :=
  (∀ s : State, exec .nop s = .next { s with resp := some { err := s.errCode, rdata := 0 } }) ∧
    ∀ x : CommandWord, decodeWord x = .ok .nop ↔ x = 0

/-- R232, R30 to R35: `RDCSR` answers the register, field by field as the CSR rules give it, in every state of
the machine, and changes nothing; a number above 4 raises `IllegalCommand` outside the fault state, and in it is
answered `rdata` 0. -/
def Obligations.RdcsrReadsTheRegister : Prop :=
  ∀ s : State, s.Inv →
    (∀ n, (Instr.rdcsr n).opcode.bits = 0x01#6) ∧
    (∃ v : Nat → Word,
        (∀ n : Imm7, n.toNat ≤ 4 →
          exec (.rdcsr n) s = .next { s with resp := some { err := s.errCode, rdata := v n.toNat } }) ∧
        (v 0).toNat = s.errCode.toNat ∧ (v 1).toNat = s.ecmd.toNat ∧
        (v 2).toNat = s.tn + 2 ^ 8 * s.tbits + (if s.tbuilt = true then 2 ^ 16 else 0) +
          (if s.tbuilt = true ∧ s.tab.length = 2 ^ s.tbits then 2 ^ 17 else 0) ∧
        (v 3).toNat = s.tab.length ∧ (v 4).toNat = 8 + 2 ^ 8 * s.smax.val + 2 ^ 16) ∧
      ∀ n : Imm7, 4 < n.toNat →
        (s.err = none →
          exec (.rdcsr n) s = .next
            { s with err := some .illegalCommand, ecmd := s.cmd.inst, resp := some { err := 4, rdata := 0 } }) ∧
        ∀ k, s.err = some k →
          exec (.rdcsr n) s = .next { s with resp := some { err := k.code, rdata := 0 } }

/-! ## The BitMatrix commands -/

/-- R101. -/
def Obligations.MzeroBuildsTheZeroMatrix : Prop :=
  ∀ (md : MReg) (rows cols : Imm7) (s : State), s.err = none →
    (Instr.mzero md rows cols).opcode.bits = 0x08#6 ∧
    (rows.toNat ≤ 64 ∧ cols.toNat ≤ 64 →
        exec (.mzero md rows cols) s = .next
          { s with
            mats := s.mats.set md { cols := cols.toNat, w := List.replicate rows.toNat 0 }
            resp := some { err := 0, rdata := 0 } }) ∧
      (64 < rows.toNat ∨ 64 < cols.toNat →
        exec (.mzero md rows cols) s = .next
          { s with err := some .dimensionError, ecmd := s.cmd.inst, resp := some { err := 2, rdata := 0 } })

/-- R102: entry `(r, c)` is 1 exactly when `r = c`, also for a matrix that is not square. -/
def Obligations.MidentBuildsTheIdentity : Prop :=
  ∀ (md : MReg) (rows cols : Imm7) (s : State), s.err = none →
    (Instr.mident md rows cols).opcode.bits = 0x09#6 ∧
    (rows.toNat ≤ 64 ∧ cols.toNat ≤ 64 →
        ∃ m : BitMatrix,
          exec (.mident md rows cols) s = .next
            { s with mats := s.mats.set md m, resp := some { err := 0, rdata := 0 } } ∧
          m.wf ∧ m.rows = rows.toNat ∧ m.cols = cols.toNat ∧
          ∀ r c, r < rows.toNat → c < cols.toNat → m.bit r c = decide (r = c)) ∧
      (64 < rows.toNat ∨ 64 < cols.toNat →
        exec (.mident md rows cols) s = .next
          { s with err := some .dimensionError, ecmd := s.cmd.inst, resp := some { err := 2, rdata := 0 } })

/-- R103: `rdata[14:8] = rows`, `rdata[6:0] = cols`, every other bit 0. -/
def Obligations.MdimAnswersTheDimensions : Prop :=
  ∀ (ma : MReg) (s : State), s.err = none → (s.mat ma).wf →
    (Instr.mdim ma).opcode.bits = 0x0A#6 ∧
    ∃ x : Word, exec (.mdim ma) s = .next { s with resp := some { err := 0, rdata := x } } ∧
      x.toNat = 2 ^ 8 * (s.mat ma).rows + (s.mat ma).cols

/-- R106, R22: the entry at row `r`, column `c` is bit `cols - 1 - c` of row word `r`. -/
def Obligations.GetReadsTheEntry : Prop :=
  ∀ (ma : MReg) (row col : Imm7) (s : State), s.err = none →
    (Instr.get ma row col).opcode.bits = 0x0B#6 ∧
    (∀ x : Word, (s.mat ma).w[row.toNat]? = some x → col.toNat < (s.mat ma).cols →
        exec (.get ma row col) s = .next
          { s with
            resp := some { err := 0, rdata := if x.getLsbD ((s.mat ma).cols - 1 - col.toNat) then 1 else 0 } }) ∧
      ((s.mat ma).rows ≤ row.toNat ∨ (s.mat ma).cols ≤ col.toNat →
        exec (.get ma row col) s = .next
          { s with err := some .indexError, ecmd := s.cmd.inst, resp := some { err := 1, rdata := 0 } })

/-- R108: only the named bit of the named row changes. -/
def Obligations.SetWritesTheEntryAlone : Prop :=
  ∀ (md : MReg) (row col : Imm7) (b : Bool) (s : State), s.err = none →
    (Instr.set md row col b).opcode.bits = 0x0C#6 ∧
    ((s.mat md).wf → row.toNat < (s.mat md).rows → col.toNat < (s.mat md).cols →
        ∃ m : BitMatrix,
          exec (.set md row col b) s = .next
            { s with mats := s.mats.set md m, resp := some { err := 0, rdata := 0 } } ∧
          m.wf ∧ m.rows = (s.mat md).rows ∧ m.cols = (s.mat md).cols ∧
          ∀ r p, r < m.rows → (m.row r).getLsbD p =
            if r = row.toNat ∧ p = m.cols - 1 - col.toNat then b else ((s.mat md).row r).getLsbD p) ∧
      ((s.mat md).rows ≤ row.toNat ∨ (s.mat md).cols ≤ col.toNat →
        exec (.set md row col b) s = .next
          { s with err := some .indexError, ecmd := s.cmd.inst, resp := some { err := 1, rdata := 0 } })

/-- R110. -/
def Obligations.RowrdReadsTheRow : Prop :=
  ∀ (ma : MReg) (row : Imm7) (s : State), s.err = none →
    (Instr.rowrd ma row).opcode.bits = 0x0D#6 ∧
    (∀ x : Word, (s.mat ma).w[row.toNat]? = some x →
        exec (.rowrd ma row) s = .next { s with resp := some { err := 0, rdata := x } }) ∧
      ((s.mat ma).rows ≤ row.toNat →
        exec (.rowrd ma row) s = .next
          { s with err := some .indexError, ecmd := s.cmd.inst, resp := some { err := 1, rdata := 0 } })

/-- R112. -/
def Obligations.RowwrWritesTheRow : Prop :=
  ∀ (md : MReg) (row : Imm7) (s : State), s.err = none →
    (Instr.rowwr md row).opcode.bits = 0x0E#6 ∧
    (row.toNat < (s.mat md).rows → s.cmd.op1 >>> (s.mat md).cols = 0 →
        exec (.rowwr md row) s = .next
          { s with
            mats := s.mats.set md { cols := (s.mat md).cols, w := (s.mat md).w.set row.toNat s.cmd.op1 }
            resp := some { err := 0, rdata := 0 } }) ∧
      ((s.mat md).rows ≤ row.toNat ∨ s.cmd.op1 >>> (s.mat md).cols ≠ 0 →
        exec (.rowwr md row) s = .next
          { s with err := some .indexError, ecmd := s.cmd.inst, resp := some { err := 1, rdata := 0 } })

/-- R114: `MULR` is the matrix-vector product over GF(2), row 0 at bit `rows-1`, bits `rows` and above 0. R115: an
over-wide vector completes without error, with some `rdata` of which nothing is said, and writes no state of the
block; `free` is the model's own counter (log entry 6). -/
def Obligations.MulrIsTheMatrixVectorProduct : Prop :=
  ∀ (ma : MReg) (s : State), s.err = none →
    (Instr.mulr ma).opcode.bits = 0x0F#6 ∧
    ((s.mat ma).wf → s.cmd.op1 >>> (s.mat ma).cols = 0 →
        ∃ x : Word, exec (.mulr ma) s = .next { s with resp := some { err := 0, rdata := x } } ∧
          x >>> (s.mat ma).rows = 0 ∧
          ∀ r, r < (s.mat ma).rows → x.getLsbD ((s.mat ma).rows - 1 - r) =
            xorSum (s.mat ma).cols fun c =>
              (s.mat ma).bit r c && s.cmd.op1.getLsbD ((s.mat ma).cols - 1 - c)) ∧
      (s.cmd.op1 >>> (s.mat ma).cols ≠ 0 →
        ∃ x n, exec (.mulr ma) s = .next { s with resp := some { err := 0, rdata := x }, free := n })

/-- R116: entry `(r, c)` of the result is entry `(op1 + r, op2 + c)` of the source; the sums do not wrap. -/
def Obligations.ExtractCopiesTheRegion : Prop :=
  ∀ (md ma : MReg) (rows cols : Imm7) (s : State), s.err = none →
    (Instr.extract md ma rows cols).opcode.bits = 0x10#6 ∧
    ((s.mat ma).wf → s.cmd.op1.toNat + rows.toNat ≤ (s.mat ma).rows →
        s.cmd.op2.toNat + cols.toNat ≤ (s.mat ma).cols →
        ∃ m : BitMatrix,
          exec (.extract md ma rows cols) s = .next
            { s with mats := s.mats.set md m, resp := some { err := 0, rdata := 0 } } ∧
          m.wf ∧ m.rows = rows.toNat ∧ m.cols = cols.toNat ∧
          ∀ r c, r < rows.toNat → c < cols.toNat →
            m.bit r c = (s.mat ma).bit (s.cmd.op1.toNat + r) (s.cmd.op2.toNat + c)) ∧
      ((s.mat ma).rows < s.cmd.op1.toNat + rows.toNat ∨ (s.mat ma).cols < s.cmd.op2.toNat + cols.toNat →
        exec (.extract md ma rows cols) s = .next
          { s with err := some .dimensionError, ecmd := s.cmd.inst, resp := some { err := 2, rdata := 0 } })

/-- R118: the columns of `Ma` followed by the columns of `Mb`. -/
def Obligations.AppendConcatenatesColumns : Prop :=
  ∀ (md ma mb : MReg) (s : State), s.err = none →
    (Instr.append md ma mb).opcode.bits = 0x11#6 ∧
    ((s.mat ma).wf → (s.mat mb).wf → (s.mat ma).rows = (s.mat mb).rows →
        (s.mat ma).cols + (s.mat mb).cols ≤ 64 →
        ∃ m : BitMatrix,
          exec (.append md ma mb) s = .next
            { s with mats := s.mats.set md m, resp := some { err := 0, rdata := 0 } } ∧
          m.wf ∧ m.rows = (s.mat ma).rows ∧ m.cols = (s.mat ma).cols + (s.mat mb).cols ∧
          ∀ r c, r < m.rows → c < m.cols → m.bit r c =
            if c < (s.mat ma).cols then (s.mat ma).bit r c else (s.mat mb).bit r (c - (s.mat ma).cols)) ∧
      ((s.mat ma).rows ≠ (s.mat mb).rows ∨ 64 < (s.mat ma).cols + (s.mat mb).cols →
        exec (.append md ma mb) s = .next
          { s with err := some .dimensionError, ecmd := s.cmd.inst, resp := some { err := 2, rdata := 0 } })

/-- R120: entry `(j, i)` of the result is entry `(i, j)` of the source. -/
def Obligations.TranspSwapsRowsAndColumns : Prop :=
  ∀ (md ma : MReg) (s : State), s.err = none → (s.mat ma).wf →
    (Instr.transp md ma).opcode.bits = 0x12#6 ∧
    ∃ m : BitMatrix,
      exec (.transp md ma) s = .next
        { s with mats := s.mats.set md m, resp := some { err := 0, rdata := 0 } } ∧
      m.wf ∧ m.rows = (s.mat ma).cols ∧ m.cols = (s.mat ma).rows ∧
      ∀ i j, i < (s.mat ma).rows → j < (s.mat ma).cols → m.bit j i = (s.mat ma).bit i j

/-- R122, R79: the expansion of `MCOPY Md, Ma` copies `Ma` into `Md`, dimensions and row words alike. -/
def Obligations.TransposingTwiceCopies : Prop :=
  ∀ (md ma : MReg) (s : State), s.err = none → (s.mat ma).wf →
    ∃ t, exec (.transp md ma) s = .next t ∧
      exec (.transp md md) t = .next
        { s with mats := s.mats.set md (s.mat ma), resp := some { err := 0, rdata := 0 } }

/-- R123. -/
def Obligations.MulrIsLinear : Prop :=
  ∀ (m : BitMatrix) (v1 v2 : Word), m.wf → v1 >>> m.cols = 0 → v2 >>> m.cols = 0 →
    m.mulr (v1 ^^^ v2) = m.mulr v1 ^^^ m.mulr v2

/-- R124: the product with the transpose is the vector-matrix product. -/
def Obligations.MulrOfTheTransposeIsTheVectorMatrixProduct : Prop :=
  ∀ (g : BitMatrix) (m : Word), g.wf → m >>> g.rows = 0 →
    ∀ j, j < g.cols → (g.transpose.mulr m).getLsbD (g.cols - 1 - j) =
      xorSum g.rows fun i => m.getLsbD (g.rows - 1 - i) && g.bit i j

/-! ## The row commands -/

/-- R210: row `dst` becomes row `dst` + row `src`; only row `dst` changes. -/
def Obligations.RowxorAddsARow : Prop :=
  ∀ (md : MReg) (dst src : Imm7) (s : State), s.err = none →
    (Instr.rowxor md dst src).opcode.bits = 0x18#6 ∧
    (∀ x y : Word, (s.mat md).w[dst.toNat]? = some x → (s.mat md).w[src.toNat]? = some y →
        exec (.rowxor md dst src) s = .next
          { s with
            mats := s.mats.set md { cols := (s.mat md).cols, w := (s.mat md).w.set dst.toNat (x ^^^ y) }
            resp := some { err := 0, rdata := 0 } }) ∧
      ((s.mat md).rows ≤ dst.toNat ∨ (s.mat md).rows ≤ src.toNat →
        exec (.rowxor md dst src) s = .next
          { s with err := some .indexError, ecmd := s.cmd.inst, resp := some { err := 1, rdata := 0 } })

/-- R212: both reads are of the old value. -/
def Obligations.RowswapExchangesRows : Prop :=
  ∀ (md : MReg) (r1 r2 : Imm7) (s : State), s.err = none →
    (Instr.rowswap md r1 r2).opcode.bits = 0x19#6 ∧
    (∀ x y : Word, (s.mat md).w[r1.toNat]? = some x → (s.mat md).w[r2.toNat]? = some y →
        ∃ m : BitMatrix,
          exec (.rowswap md r1 r2) s = .next
            { s with mats := s.mats.set md m, resp := some { err := 0, rdata := 0 } } ∧
          m.rows = (s.mat md).rows ∧ m.cols = (s.mat md).cols ∧
          ∀ r, r < m.rows → m.w[r]? =
            if r = r1.toNat then some y else if r = r2.toNat then some x else (s.mat md).w[r]?) ∧
      ((s.mat md).rows ≤ r1.toNat ∨ (s.mat md).rows ≤ r2.toNat →
        exec (.rowswap md r1 r2) s = .next
          { s with err := some .indexError, ecmd := s.cmd.inst, resp := some { err := 1, rdata := 0 } })

/-- R214: the result has the dimensions and the row space of the source and is in reduced row echelon form with
pivot columns `piv`; `rank` is their number, `std` says that the leftmost `rows` columns are the identity. -/
def Obligations.RrefGivesTheReducedRowEchelonForm : Prop :=
  ∀ (md ma : MReg) (s : State), s.err = none → (s.mat ma).wf →
    (Instr.rref md ma).opcode.bits = 0x1A#6 ∧
    ∃ (m : BitMatrix) (piv : List Nat) (x : Word),
      exec (.rref md ma) s = .next
        { s with mats := s.mats.set md m, resp := some { err := 0, rdata := x } } ∧
      m.wf ∧ m.rows = (s.mat ma).rows ∧ m.cols = (s.mat ma).cols ∧
      (∀ y, InRowSpace m.w y ↔ InRowSpace (s.mat ma).w y) ∧
      piv.length ≤ m.rows ∧ piv.Pairwise (· < ·) ∧ (∀ c ∈ piv, c < m.cols) ∧
      (∀ p c, piv[p]? = some c →
        m.bit p c = true ∧ (∀ d, d < c → m.bit p d = false) ∧
          ∀ i, i < m.rows → i ≠ p → m.bit i c = false) ∧
      (∀ i, piv.length ≤ i → i < m.rows → m.row i = 0) ∧
      ((m.standardForm ∧ x.toNat = 2 ^ 7 + piv.length) ∨ (¬m.standardForm ∧ x.toNat = piv.length))

/-! ## The CodeBuilder -/

/-- R140: `[A^t | I]`, entry by entry, for every generator of legal shape, in standard form or not (R141), with
no rows when `n = k` (R142). -/
def Obligations.DerivehWritesTheControlMatrix : Prop :=
  ∀ (md ma : MReg) (s : State), s.err = none →
    (Instr.deriveh md ma).opcode.bits = 0x20#6 ∧
    ((s.mat ma).wf → 1 ≤ (s.mat ma).rows → (s.mat ma).rows ≤ (s.mat ma).cols →
        ∃ h : BitMatrix,
          exec (.deriveh md ma) s = .next
            { s with mats := s.mats.set md h, resp := some { err := 0, rdata := 0 } } ∧
          h.wf ∧ h.rows = (s.mat ma).cols - (s.mat ma).rows ∧ h.cols = (s.mat ma).cols ∧
          ∀ r c, r < h.rows → c < h.cols → h.bit r c =
            if c < (s.mat ma).rows then (s.mat ma).bit c ((s.mat ma).rows + r)
            else decide (c - (s.mat ma).rows = r)) ∧
      ((s.mat ma).rows = 0 ∨ (s.mat ma).cols < (s.mat ma).rows →
        exec (.deriveh md ma) s = .next
          { s with
            err := some .invalidGeneratorShape, ecmd := s.cmd.inst, resp := some { err := 3, rdata := 0 } })

/-- R143: the syndrome of every codeword of a generator in standard form is 0. -/
def Obligations.CodewordsHaveZeroSyndrome : Prop :=
  ∀ (g : BitMatrix) (m : Word), g.wf → g.standardForm → m >>> g.rows = 0 →
    g.deriveControl.mulr (g.transpose.mulr m) = 0

/-! ## The SyndromeTable -/

/-- R151, R152: `patterns(n, w)` holds exactly the `n`-bit vectors of weight `w`, each once, in increasing
numeric order, so each but the last is followed by the next larger one of its weight. -/
def Obligations.PatternsListTheVectorsOfOneWeight : Prop :=
  ∀ n w : Nat, n ≤ 64 →
    (patterns n w).Pairwise (fun a b => a.toNat < b.toNat) ∧
      ∀ e : Word, e ∈ patterns n w ↔ e >>> n = 0 ∧ hammingWeight e = w

/-- R153, R155: a completed build holds exactly the reachable syndromes, each with the least weight of a vector
that produces it; more rows than SMAX raise `CapacityError`. That the entries stand in rising order of their
syndromes is the model's canonical form, not the spec's (log entry 11). -/
def Obligations.TbuildWritesTheCosetLeaderWeights : Prop :=
  ∀ (ma : MReg) (s : State), s.err = none →
    (Instr.tbuild ma).opcode.bits = 0x28#6 ∧
    ((s.mat ma).wf → (s.mat ma).rows ≤ s.smax.val →
        ∃ t : Table,
          exec (.tbuild ma) s = .next
            { s with
              tab := t, tn := (s.mat ma).cols, tbits := (s.mat ma).rows, tbuilt := true
              resp := some { err := 0, rdata := BitVec.ofNat 64 t.length } } ∧
          tableSorted t ∧ ∀ y w, (y, w) ∈ t ↔ (s.mat ma).leaderWeight y w) ∧
      (s.smax.val < (s.mat ma).rows →
        exec (.tbuild ma) s = .next
          { s with err := some .capacityError, ecmd := s.cmd.inst, resp := some { err := 5, rdata := 0 } })

/-- R154: the table of a control matrix that `DERIVEH` made has all `2^(n-k)` syndromes, syndrome 0 with
weight 0. -/
def Obligations.TheTableOfADerivedControlMatrixIsComplete : Prop :=
  ∀ g : BitMatrix, g.wf → 1 ≤ g.rows → g.rows ≤ g.cols →
    (buildTable g.deriveControl).length = 2 ^ (g.cols - g.rows) ∧
      tableFind (buildTable g.deriveControl) 0 = some 0

/-- R156: `present << 7 | weight`, 0 for an absent syndrome. -/
def Obligations.TlookupAnswersTheEntry : Prop :=
  ∀ s : State, s.err = none → s.Inv →
    Instr.tlookup.opcode.bits = 0x29#6 ∧
    ∃ x : Word, exec .tlookup s = .next { s with resp := some { err := 0, rdata := x } } ∧
      (∀ w, (s.cmd.op1, w) ∈ s.tab → x.toNat = 2 ^ 7 + w) ∧
      ((∀ w, (s.cmd.op1, w) ∉ s.tab) → x = 0)

/-! ## The Codec -/

/-- R170, R172, R177: `DECODE` is one greedy pass over the `k` leading positions. `r i` is the working vector
when position `i` is visited; leaving the loop at weight 0 keeps it to the end. R175: an
over-wide vector completes with some `rdata` of which nothing is said; `free` is the model's own counter (log
entry 6). -/
def Obligations.DecodeIsTheGreedyPass : Prop :=
  ∀ (ma : MReg) (s : State), s.err = none →
    (Instr.decode ma).opcode.bits = 0x30#6 ∧
    ((s.mat ma).wf → (s.mat ma).rows ≤ (s.mat ma).cols → s.cmd.op1 >>> (s.mat ma).cols = 0 →
        ∃ r : Nat → Word,
          exec (.decode ma) s = .next
            { s with
              resp := some
                { err := 0, rdata := r ((s.mat ma).cols - (s.mat ma).rows) >>> (s.mat ma).rows } } ∧
          r 0 = s.cmd.op1 ∧
          (∀ i, i < (s.mat ma).cols - (s.mat ma).rows → r (i + 1) =
            if tableWeight s.tab ((s.mat ma).mulr (r i)) ≠ 0 ∧
                tableWeight s.tab ((s.mat ma).mulr (r i ^^^ 1#64 <<< ((s.mat ma).cols - i - 1))) <
                  tableWeight s.tab ((s.mat ma).mulr (r i)) then
              r i ^^^ 1#64 <<< ((s.mat ma).cols - i - 1)
            else r i) ∧
          (r ((s.mat ma).cols - (s.mat ma).rows) >>> (s.mat ma).rows).toNat <
            2 ^ ((s.mat ma).cols - (s.mat ma).rows)) ∧
      ((s.mat ma).rows ≤ (s.mat ma).cols → s.cmd.op1 >>> (s.mat ma).cols ≠ 0 →
        ∃ x n, exec (.decode ma) s = .next { s with resp := some { err := 0, rdata := x }, free := n }) ∧
      ((s.mat ma).cols < (s.mat ma).rows →
        exec (.decode ma) s = .next
          { s with
            err := some .invalidControlShape, ecmd := s.cmd.inst, resp := some { err := 6, rdata := 0 } })

/-- R174 (b): a vector with syndrome 0 is returned without a flip, whatever table the machine holds. -/
def Obligations.DecodeKeepsCodewords : Prop :=
  ∀ (ma : MReg) (s : State), s.Inv → s.err = none → (s.mat ma).rows ≤ (s.mat ma).cols →
    s.cmd.op1 >>> (s.mat ma).cols = 0 → (s.mat ma).mulr s.cmd.op1 = 0 →
      exec (.decode ma) s = .next
        { s with resp := some { err := 0, rdata := s.cmd.op1 >>> (s.mat ma).rows } }

/-- R171: the leading `k` bits of a codeword of a generator in standard form are the message. -/
def Obligations.EncodingIsSystematic : Prop :=
  ∀ (g : BitMatrix) (m : Word), g.wf → g.standardForm → m >>> g.rows = 0 →
    g.transpose.mulr m >>> (g.cols - g.rows) = m ∧ g.transpose.mulr m >>> g.cols = 0

/-- R174 (a): without noise, decoding an encoded message gives the message back, with the control matrix from
`DERIVEH` and the table from `TBUILD` on it. -/
def Obligations.NoiselessRoundTrip : Prop :=
  ∀ (g : BitMatrix) (m : Word) (ma : MReg) (s : State), g.wf → g.standardForm → m >>> g.rows = 0 →
    s.err = none → s.mat ma = g.deriveControl → s.tab = buildTable g.deriveControl →
    s.cmd.op1 = g.transpose.mulr m →
      exec (.decode ma) s = .next { s with resp := some { err := 0, rdata := m } }

/-! ## The Channel -/

/-- R190, R193: bit `i` below `width` is toggled exactly when draw `i` is below the threshold, the others pass;
`width` draws are taken; a width above 64 or a threshold above `2^32` raises before any draw. -/
def Obligations.ChsendTogglesByTheDraws : Prop :=
  ∀ (width : Imm7) (s : State), s.err = none →
    (Instr.chsend width).opcode.bits = 0x38#6 ∧
    (width.toNat ≤ 64 → s.cmd.op2.toNat ≤ 2 ^ 32 →
        ∃ x : Word,
          exec (.chsend width) s = .next
            { s with rng := rngAfter width.toNat s.rng, resp := some { err := 0, rdata := x } } ∧
          ∀ i, i < 64 → x.getLsbD i =
            (s.cmd.op1.getLsbD i ^^ (decide (i < width.toNat) && decide (drawAt s.rng i < s.cmd.op2.toNat)))) ∧
      (64 < width.toNat ∨ 2 ^ 32 < s.cmd.op2.toNat →
        exec (.chsend width) s = .next
          { s with err := some .illegalCommand, ecmd := s.cmd.inst, resp := some { err := 4, rdata := 0 } })

/-- R191: probability 0 changes no bit, probability 1 flips every one of the `width` least significant bits, for
every generator and every generator state. -/
def Obligations.ChsendAtTheBoundaries : Prop :=
  ∀ (width : Imm7) (s : State), s.err = none → width.toNat ≤ 64 →
    (s.cmd.op2 = 0 →
        exec (.chsend width) s = .next
          { s with rng := rngAfter width.toNat s.rng, resp := some { err := 0, rdata := s.cmd.op1 } }) ∧
      (s.cmd.op2.toNat = 2 ^ 32 →
        exec (.chsend width) s = .next
          { s with
            rng := rngAfter width.toNat s.rng
            resp := some { err := 0, rdata := s.cmd.op1 ^^^ BitVec.ofNat 64 (2 ^ width.toNat - 1) } })

/-- R192. -/
def Obligations.ChseedReseedsTheGenerator : Prop :=
  ∀ s : State, s.err = none →
    Instr.chseed.opcode.bits = 0x39#6 ∧
    exec .chseed s = .next { s with rng := Config.rngSeed s.cmd.op1, resp := some { err := 0, rdata := 0 } }

/-! ## The invariant -/

/-- The machine is in its invariant right after reset. -/
def Obligations.InvHoldsAtReset : Prop := State.reset.Inv

/-- R21, R25, R26, R28, R34, R71: every step keeps the invariant, from every state that meets it. -/
def Obligations.EveryStepKeepsTheInvariant : Prop :=
  ∀ s t : State, s.Inv → step s = .next t → t.Inv

/-! ## The stalled block -/

/-- R292: a host that leaves a response pending and has only commands to present stalls the block for good: in every
sequence of steps from such a state each state is the first one, so nothing is accepted and the response stays
presented. -/
def Obligations.AHostThatTakesNoResponseStallsTheBlock : Prop :=
  ∀ run : Nat → State, (run 0).resp ≠ none → (∀ e ∈ (run 0).inputs, ∃ c, e = .command c) →
    (∀ k, step (run k) = .next (run (k + 1))) → ∀ k, run k = run 0
end

