-- ==== Sys2Proof/Laws/Bits.lean ====
section
/-!
SUPPORT. What each bit primitive of Machine/Bits.lean says bit by bit; parity and weight as the plain sums the
statements use.
-/

namespace Sys2Proof.Machine

open Sys2Proof

theorem ushiftRight_eq_zero_iff (v : Word) (n : Nat) :
    v >>> n = 0 ↔ ∀ p, n ≤ p → v.getLsbD p = false := by
  constructor
  · intro h p hp
    have := congrArg (fun x : Word => x.getLsbD (p - n)) h
    simpa [Nat.add_sub_cancel' hp] using this
  · intro h
    apply BitVec.eq_of_getLsbD_eq
    intro i _
    simpa using h (n + i) (Nat.le_add_right _ _)

theorem ushiftRight_eq_zero_iff_toNat (v : Word) (n : Nat) : v >>> n = 0 ↔ v.toNat < 2 ^ n := by
  rw [← BitVec.toNat_inj, BitVec.toNat_ushiftRight, Nat.shiftRight_eq_div_pow]
  simp [Nat.div_eq_zero_iff]

@[simp] theorem overWide_eq_false_iff (v : Word) (n : Nat) : overWide v n = false ↔ v >>> n = 0 := by
  simp [overWide]

@[simp] theorem overWide_eq_true_iff (v : Word) (n : Nat) : overWide v n = true ↔ v >>> n ≠ 0 := by
  simp [overWide]

@[simp] theorem getLsbD_oneAt (p i : Nat) : (oneAt p).getLsbD i = (decide (i = p) && decide (i < 64)) := by
  unfold oneAt
  rw [BitVec.getLsbD_shiftLeft, BitVec.getLsbD_one]
  by_cases h : i = p
  · subst h; simp
  · by_cases h' : i < p
    · simp [h, h']
    · simp [h, show i - p ≠ 0 by omega]

theorem getLsbD_mask {n : Nat} (hn : n ≤ 64) (i : Nat) : (mask n).getLsbD i = decide (i < n) := by
  unfold mask
  rw [BitVec.getLsbD_ofNat, Nat.testBit_two_pow_sub_one]
  by_cases h : i < n
  · simp [h]; omega
  · simp [h]

theorem getLsbD_putBit (x : Word) (p : Nat) (b : Bool) {i : Nat} (hi : i < 64) :
    (putBit x p b).getLsbD i = if i = p then b else x.getLsbD i := by
  unfold putBit
  by_cases h : i = p
  · subst h; cases b <;> simp [hi]
  · have : (oneAt p)[i] = false := by rw [← BitVec.getLsbD_eq_getElem hi, getLsbD_oneAt]; simp [h]
    cases b <;> simp [h, hi, this]

theorem getLsbD_packBits (bs : List Bool) (h : bs.length ≤ 64) (p : Nat) :
    (packBits bs).getLsbD p = (decide (p < bs.length) && bs.getD (bs.length - 1 - p) false) := by
  induction bs with
  | nil => simp [packBits]
  | cons b bs ih =>
    simp only [List.length_cons] at h
    rw [packBits, BitVec.getLsbD_or, ih (by omega)]
    by_cases hp : p = bs.length
    · subst hp; cases b <;> simp; omega
    · by_cases hlt : p < bs.length
      · have : bs.length - p = (bs.length - 1 - p) + 1 := by omega
        cases b <;> simp [hp, hlt, Nat.lt_succ_of_lt hlt, this]
      · cases b <;> simp [hp, hlt, show ¬p < bs.length + 1 by omega]

theorem packBits_shift (bs : List Bool) (h : bs.length ≤ 64) : packBits bs >>> bs.length = 0 := by
  rw [ushiftRight_eq_zero_iff]
  intro p hp
  rw [getLsbD_packBits bs h]
  simp [Nat.not_lt.mpr hp]

/-! Sums over GF(2). -/

theorem xorSum_congr {n : Nat} {f g : Nat → Bool} (h : ∀ i, i < n → f i = g i) : xorSum n f = xorSum n g := by
  induction n with
  | zero => rfl
  | succ n ih => rw [xorSum, xorSum, ih fun i hi => h i (by omega), h n (by omega)]

@[simp] theorem xorSum_false (n : Nat) : xorSum n (fun _ => false) = false := by
  induction n with
  | zero => rfl
  | succ n ih => rw [xorSum, ih]; rfl

theorem xorSum_xor (n : Nat) (f g : Nat → Bool) :
    xorSum n (fun i => f i ^^ g i) = (xorSum n f ^^ xorSum n g) := by
  induction n with
  | zero => rfl
  | succ n ih =>
    simp only [xorSum, ih]
    cases xorSum n f <;> cases xorSum n g <;> cases f n <;> cases g n <;> rfl

/-- The sum with terms beyond `n` all 0. -/
theorem xorSum_extend {n k : Nat} {f : Nat → Bool} (hnk : n ≤ k) (h : ∀ i, n ≤ i → i < k → f i = false) :
    xorSum k f = xorSum n f := by
  induction k with
  | zero => rw [Nat.le_zero.mp hnk]
  | succ k ih =>
    by_cases hn : n = k + 1
    · rw [hn]
    · rw [xorSum, ih (by omega) fun i h1 h2 => h i h1 (by omega), h k (by omega) (by omega)]; simp

/-- The sum with one term left. -/
theorem xorSum_single {n j : Nat} {f : Nat → Bool} (hj : j < n) (h : ∀ i, i < n → i ≠ j → f i = false) :
    xorSum n f = f j := by
  induction n with
  | zero => omega
  | succ n ih =>
    by_cases hjn : j = n
    · subst hjn
      rw [xorSum, xorSum_congr (g := fun _ => false) fun i hi => h i (by omega) (by omega)]; simp
    · rw [xorSum, ih (by omega) fun i hi => h i (by omega), h n (by omega) (fun e => hjn e.symm)]; simp

theorem xorSum_and_left (n : Nat) (b : Bool) (f : Nat → Bool) :
    xorSum n (fun i => b && f i) = (b && xorSum n f) := by
  cases b <;> simp

/-- The order of the terms reversed. -/
theorem xorSum_reverse (n : Nat) (f : Nat → Bool) : xorSum n (fun i => f (n - 1 - i)) = xorSum n f := by
  suffices h : ∀ k, k ≤ n → (xorSum k (fun i => f (n - 1 - i)) ^^ xorSum (n - k) f) = xorSum n f by
    have := h n (Nat.le_refl _)
    simpa [xorSum] using this
  intro k hk
  induction k with
  | zero => simp [xorSum]
  | succ k ih =>
    have ih := ih (by omega)
    rw [show n - k = (n - (k + 1)) + 1 by omega, xorSum] at ih
    rw [xorSum, show n - 1 - k = n - (k + 1) by omega, ← ih]
    cases xorSum k (fun i => f (n - 1 - i)) <;> cases f (n - (k + 1)) <;> cases xorSum (n - (k + 1)) f <;> rfl

/-- Two sums exchanged. -/
theorem xorSum_comm (n k : Nat) (f : Nat → Nat → Bool) :
    xorSum n (fun i => xorSum k (f i)) = xorSum k (fun j => xorSum n fun i => f i j) := by
  induction n with
  | zero => simp [xorSum]
  | succ n ih => simp only [xorSum]; rw [ih, ← xorSum_xor]

/-! Parity and weight. -/

theorem popcountBelow_parity (x : Word) (n : Nat) :
    (popcountBelow x n % 2 == 1) = xorSum n fun i => x.getLsbD i := by
  induction n with
  | zero => rfl
  | succ n ih =>
    rw [xorSum, ← ih, popcountBelow]
    rcases Nat.mod_two_eq_zero_or_one (popcountBelow x n) with h | h <;> cases x.getLsbD n <;>
      simp [h, Nat.add_mod]

theorem parity_eq_xorSum (x : Word) : parity x = xorSum 64 fun i => x.getLsbD i :=
  popcountBelow_parity x 64

theorem popcountBelow_eq_countP (x : Word) (n : Nat) :
    popcountBelow x n = (List.range n).countP fun p => x.getLsbD p := by
  induction n with
  | zero => rfl
  | succ n ih => rw [popcountBelow, ih, List.range_succ, List.countP_append]; cases h : x.getLsbD n <;> simp [h]

theorem popcount_eq_hammingWeight (x : Word) : popcount x = hammingWeight x := popcountBelow_eq_countP x 64

/-- Bits beyond the width count nothing. -/
theorem popcountBelow_extend {x : Word} {n k : Nat} (h : x >>> n = 0) (hk : n ≤ k) :
    popcountBelow x k = popcountBelow x n := by
  induction k with
  | zero => rw [Nat.le_zero.mp hk]
  | succ k ih =>
    by_cases e : n = k + 1
    · rw [e]
    · rw [popcountBelow, ih (by omega), (ushiftRight_eq_zero_iff _ _).mp h k (by omega)]; simp

theorem popcountBelow_congr {x y : Word} {n : Nat} (h : ∀ i, i < n → x.getLsbD i = y.getLsbD i) :
    popcountBelow x n = popcountBelow y n := by
  induction n with
  | zero => rfl
  | succ n ih => rw [popcountBelow, popcountBelow, ih fun i hi => h i (by omega), h n (by omega)]

/-- The weight of a word of `n` bits is counted in those bits. -/
theorem hammingWeight_eq_popcountBelow {x : Word} {n : Nat} (hn : n ≤ 64) (h : x >>> n = 0) :
    hammingWeight x = popcountBelow x n := by
  rw [← popcount_eq_hammingWeight, popcount, popcountBelow_extend h hn]

theorem toNat_or_oneAt {x : Word} {n : Nat} (hn : n < 64) (h : x >>> n = 0) :
    (x ||| oneAt n).toNat = 2 ^ n + x.toNat := by
  have h1 := Nat.two_pow_add_eq_or_of_lt ((ushiftRight_eq_zero_iff_toNat _ _).mp h) 1
  have h2 : (oneAt n).toNat = 2 ^ n := by
    simp only [oneAt, BitVec.toNat_shiftLeft, BitVec.toNat_ofNat, Nat.shiftLeft_eq]
    rw [Nat.mod_eq_of_lt]
    · simp
    · simpa using Nat.pow_lt_pow_right (by omega) hn
  rw [Nat.mul_one] at h1
  rw [BitVec.toNat_or, h2, Nat.or_comm, h1]

theorem parity_xor (x y : Word) : parity (x ^^^ y) = (parity x ^^ parity y) := by
  rw [parity_eq_xorSum, parity_eq_xorSum, parity_eq_xorSum, ← xorSum_xor]
  exact xorSum_congr fun i _ => by simp

@[simp] theorem parity_zero : parity 0 = false := by
  rw [parity_eq_xorSum]; simp

end Sys2Proof.Machine
end

