-- ==== Sys2Proof/Laws/PerInstr.lean ====
section
/-!
SUPPORT. Per command: its encoding matches its row of the opcode map (spec 30_encoding.md R73) and no field it
does not use is set. The proof goes bit by bit over the 32 bits of the word.
-/

namespace Sys2Proof.Laws.EncodingMatchesRow

open Sys2Proof

/-- The encoded word matches the row of its command, and its opcode field is the row's. -/
def Statement (i : Instr) : Prop :=
  encode i &&& i.opcode.maskWord = i.opcode.matchWord ∧ fieldOpcode (encode i) = i.opcode.bits

/-- The opcode field of R72's formula. -/
theorem fieldOpcode_commandWord (o : BitVec 6) (md ma mb : MReg) (b : Bool) (i1 i0 : Imm7) :
    fieldOpcode (commandWord o md ma mb b i1 i0) = o := by
  apply BitVec.eq_of_getLsbD_eq
  intro k hk
  interval_cases k <;> simp [fieldOpcode, commandWord]

theorem nop : Statement .nop := by
  refine ⟨?_, fieldOpcode_commandWord _ _ _ _ _ _ _⟩
  apply BitVec.eq_of_getLsbD_eq
  intro k hk
  interval_cases k <;> simp [encode, Instr.opcode, Opcode.maskWord, Opcode.matchWord, commandWord]

theorem rdcsr (n : Imm7) : Statement (.rdcsr n) := by
  refine ⟨?_, fieldOpcode_commandWord _ _ _ _ _ _ _⟩
  apply BitVec.eq_of_getLsbD_eq
  intro k hk
  interval_cases k <;> simp [encode, Instr.opcode, Opcode.maskWord, Opcode.matchWord, commandWord]

theorem mzero (md : MReg) (rows : Imm7) (cols : Imm7) : Statement (.mzero md rows cols) := by
  refine ⟨?_, fieldOpcode_commandWord _ _ _ _ _ _ _⟩
  apply BitVec.eq_of_getLsbD_eq
  intro k hk
  interval_cases k <;> simp [encode, Instr.opcode, Opcode.maskWord, Opcode.matchWord, commandWord]

theorem mident (md : MReg) (rows : Imm7) (cols : Imm7) : Statement (.mident md rows cols) := by
  refine ⟨?_, fieldOpcode_commandWord _ _ _ _ _ _ _⟩
  apply BitVec.eq_of_getLsbD_eq
  intro k hk
  interval_cases k <;> simp [encode, Instr.opcode, Opcode.maskWord, Opcode.matchWord, commandWord]

theorem mdim (ma : MReg) : Statement (.mdim ma) := by
  refine ⟨?_, fieldOpcode_commandWord _ _ _ _ _ _ _⟩
  apply BitVec.eq_of_getLsbD_eq
  intro k hk
  interval_cases k <;> simp [encode, Instr.opcode, Opcode.maskWord, Opcode.matchWord, commandWord]

theorem get (ma : MReg) (row : Imm7) (col : Imm7) : Statement (.get ma row col) := by
  refine ⟨?_, fieldOpcode_commandWord _ _ _ _ _ _ _⟩
  apply BitVec.eq_of_getLsbD_eq
  intro k hk
  interval_cases k <;> simp [encode, Instr.opcode, Opcode.maskWord, Opcode.matchWord, commandWord]

theorem set (md : MReg) (row : Imm7) (col : Imm7) (b : Bool) : Statement (.set md row col b) := by
  refine ⟨?_, fieldOpcode_commandWord _ _ _ _ _ _ _⟩
  apply BitVec.eq_of_getLsbD_eq
  intro k hk
  interval_cases k <;> simp [encode, Instr.opcode, Opcode.maskWord, Opcode.matchWord, commandWord]

theorem rowrd (ma : MReg) (row : Imm7) : Statement (.rowrd ma row) := by
  refine ⟨?_, fieldOpcode_commandWord _ _ _ _ _ _ _⟩
  apply BitVec.eq_of_getLsbD_eq
  intro k hk
  interval_cases k <;> simp [encode, Instr.opcode, Opcode.maskWord, Opcode.matchWord, commandWord]

theorem rowwr (md : MReg) (row : Imm7) : Statement (.rowwr md row) := by
  refine ⟨?_, fieldOpcode_commandWord _ _ _ _ _ _ _⟩
  apply BitVec.eq_of_getLsbD_eq
  intro k hk
  interval_cases k <;> simp [encode, Instr.opcode, Opcode.maskWord, Opcode.matchWord, commandWord]

theorem mulr (ma : MReg) : Statement (.mulr ma) := by
  refine ⟨?_, fieldOpcode_commandWord _ _ _ _ _ _ _⟩
  apply BitVec.eq_of_getLsbD_eq
  intro k hk
  interval_cases k <;> simp [encode, Instr.opcode, Opcode.maskWord, Opcode.matchWord, commandWord]

theorem extract (md : MReg) (ma : MReg) (rows : Imm7) (cols : Imm7) : Statement (.extract md ma rows cols) := by
  refine ⟨?_, fieldOpcode_commandWord _ _ _ _ _ _ _⟩
  apply BitVec.eq_of_getLsbD_eq
  intro k hk
  interval_cases k <;> simp [encode, Instr.opcode, Opcode.maskWord, Opcode.matchWord, commandWord]

theorem append (md : MReg) (ma : MReg) (mb : MReg) : Statement (.append md ma mb) := by
  refine ⟨?_, fieldOpcode_commandWord _ _ _ _ _ _ _⟩
  apply BitVec.eq_of_getLsbD_eq
  intro k hk
  interval_cases k <;> simp [encode, Instr.opcode, Opcode.maskWord, Opcode.matchWord, commandWord]

theorem transp (md : MReg) (ma : MReg) : Statement (.transp md ma) := by
  refine ⟨?_, fieldOpcode_commandWord _ _ _ _ _ _ _⟩
  apply BitVec.eq_of_getLsbD_eq
  intro k hk
  interval_cases k <;> simp [encode, Instr.opcode, Opcode.maskWord, Opcode.matchWord, commandWord]

theorem rowxor (md : MReg) (dst : Imm7) (src : Imm7) : Statement (.rowxor md dst src) := by
  refine ⟨?_, fieldOpcode_commandWord _ _ _ _ _ _ _⟩
  apply BitVec.eq_of_getLsbD_eq
  intro k hk
  interval_cases k <;> simp [encode, Instr.opcode, Opcode.maskWord, Opcode.matchWord, commandWord]

theorem rowswap (md : MReg) (r1 : Imm7) (r2 : Imm7) : Statement (.rowswap md r1 r2) := by
  refine ⟨?_, fieldOpcode_commandWord _ _ _ _ _ _ _⟩
  apply BitVec.eq_of_getLsbD_eq
  intro k hk
  interval_cases k <;> simp [encode, Instr.opcode, Opcode.maskWord, Opcode.matchWord, commandWord]

theorem rref (md : MReg) (ma : MReg) : Statement (.rref md ma) := by
  refine ⟨?_, fieldOpcode_commandWord _ _ _ _ _ _ _⟩
  apply BitVec.eq_of_getLsbD_eq
  intro k hk
  interval_cases k <;> simp [encode, Instr.opcode, Opcode.maskWord, Opcode.matchWord, commandWord]

theorem deriveh (md : MReg) (ma : MReg) : Statement (.deriveh md ma) := by
  refine ⟨?_, fieldOpcode_commandWord _ _ _ _ _ _ _⟩
  apply BitVec.eq_of_getLsbD_eq
  intro k hk
  interval_cases k <;> simp [encode, Instr.opcode, Opcode.maskWord, Opcode.matchWord, commandWord]

theorem tbuild (ma : MReg) : Statement (.tbuild ma) := by
  refine ⟨?_, fieldOpcode_commandWord _ _ _ _ _ _ _⟩
  apply BitVec.eq_of_getLsbD_eq
  intro k hk
  interval_cases k <;> simp [encode, Instr.opcode, Opcode.maskWord, Opcode.matchWord, commandWord]

theorem tlookup : Statement .tlookup := by
  refine ⟨?_, fieldOpcode_commandWord _ _ _ _ _ _ _⟩
  apply BitVec.eq_of_getLsbD_eq
  intro k hk
  interval_cases k <;> simp [encode, Instr.opcode, Opcode.maskWord, Opcode.matchWord, commandWord]

theorem decode (ma : MReg) : Statement (.decode ma) := by
  refine ⟨?_, fieldOpcode_commandWord _ _ _ _ _ _ _⟩
  apply BitVec.eq_of_getLsbD_eq
  intro k hk
  interval_cases k <;> simp [encode, Instr.opcode, Opcode.maskWord, Opcode.matchWord, commandWord]

theorem chsend (width : Imm7) : Statement (.chsend width) := by
  refine ⟨?_, fieldOpcode_commandWord _ _ _ _ _ _ _⟩
  apply BitVec.eq_of_getLsbD_eq
  intro k hk
  interval_cases k <;> simp [encode, Instr.opcode, Opcode.maskWord, Opcode.matchWord, commandWord]

theorem chseed : Statement .chseed := by
  refine ⟨?_, fieldOpcode_commandWord _ _ _ _ _ _ _⟩
  apply BitVec.eq_of_getLsbD_eq
  intro k hk
  interval_cases k <;> simp [encode, Instr.opcode, Opcode.maskWord, Opcode.matchWord, commandWord]

end Sys2Proof.Laws.EncodingMatchesRow
end

