-- ==== Sys2Proof/Laws/Encoding.lean ====
section
/-!
SUPPORT. The fields of an encoded word, read back (spec 30_encoding.md R72), and the facts of the opcode map the
decoder rests on (R73).
-/

namespace Sys2Proof.Laws.Encoding

open Sys2Proof

variable (o : BitVec 6) (md ma mb : MReg) (b : Bool) (i1 i0 : Imm7)

theorem toFin_inj {x : BitVec 3} {j : MReg} (h : x = BitVec.ofFin (w := 3) j) : x.toFin = j := by rw [h]

@[simp] theorem fieldMd_commandWord : fieldMd (commandWord o md ma mb b i1 i0) = md := by
  apply toFin_inj
  apply BitVec.eq_of_getLsbD_eq
  intro k hk
  interval_cases k <;> simp [commandWord]

@[simp] theorem fieldMa_commandWord : fieldMa (commandWord o md ma mb b i1 i0) = ma := by
  apply toFin_inj
  apply BitVec.eq_of_getLsbD_eq
  intro k hk
  interval_cases k <;> simp [commandWord]

@[simp] theorem fieldMb_commandWord : fieldMb (commandWord o md ma mb b i1 i0) = mb := by
  apply toFin_inj
  apply BitVec.eq_of_getLsbD_eq
  intro k hk
  interval_cases k <;> simp [commandWord]

@[simp] theorem fieldB_commandWord : fieldB (commandWord o md ma mb b i1 i0) = b := by
  cases b <;> simp [fieldB, commandWord]

@[simp] theorem fieldI1_commandWord : fieldI1 (commandWord o md ma mb b i1 i0) = i1 := by
  apply BitVec.eq_of_getLsbD_eq
  intro k hk
  interval_cases k <;> simp [fieldI1, commandWord]

@[simp] theorem fieldI0_commandWord : fieldI0 (commandWord o md ma mb b i1 i0) = i0 := by
  apply BitVec.eq_of_getLsbD_eq
  intro k hk
  interval_cases k <;> simp [fieldI0, commandWord]

/-- Every row is found by its opcode. -/
theorem ofBits_bits (row : Opcode) : Opcode.ofBits row.bits = some row := by cases row <;> decide

/-- The row found for an opcode has that opcode. -/
theorem bits_of_ofBits {x : BitVec 6} {row : Opcode} (h : Opcode.ofBits x = some row) : row.bits = x := by
  have := List.find?_some h
  simpa using this

/-- A word that matches a row has the row's opcode: every mask covers the opcode field. -/
theorem fieldOpcode_of_match {x : CommandWord} {row : Opcode} (h : x &&& row.maskWord = row.matchWord) :
    fieldOpcode x = row.bits := by
  have h1 : ∀ k, k < 6 → row.maskWord.getLsbD (26 + k) = true := by
    intro k hk; cases row <;> interval_cases k <;> decide
  have h2 : fieldOpcode row.matchWord = row.bits := by cases row <;> decide
  rw [← h2, ← h]
  apply BitVec.eq_of_getLsbD_eq
  intro k hk
  simp only [fieldOpcode, BitVec.getLsbD_extractLsb', BitVec.getLsbD_and, h1 k hk, Bool.and_true]

/-- The command read from a word belongs to the row it was read for. -/
@[simp] theorem opcode_instr (row : Opcode) (x : CommandWord) : (row.instr x).opcode = row := by
  cases row <;> rfl

/-- What the decoder accepts, and as what (R80). -/
theorem decodeWord_ok_iff (x : CommandWord) (i : Instr) :
    decodeWord x = .ok i ↔
      ∃ row : Opcode, x &&& row.maskWord = row.matchWord ∧ i = row.instr x ∧ i.wellFormed = true := by
  unfold decodeWord
  constructor
  · intro h
    split at h
    · cases h
    · rename_i row hrow
      split at h
      · cases h
      · rename_i hm
        split at h
        · rename_i hw
          cases h
          exact ⟨row, by simpa using hm, rfl, hw⟩
        · cases h
  · rintro ⟨row, hm, rfl, hw⟩
    rw [fieldOpcode_of_match hm, ofBits_bits]
    simp [hm, hw]

end Sys2Proof.Laws.Encoding
end

