-- ==== Sys2Proof/Laws/State.lean ====
section
/-!
SUPPORT. One lemma per field per update of the state, true by rfl, so that no later proof unfolds a record
update; then the same for the views computed from the state.
-/

namespace Sys2Proof.Machine

open Sys2Proof

variable (s : State)

@[simp] theorem State.setMat_mats (j : MReg) (m : BitMatrix) : (s.setMat j m).mats = s.mats.set j m := rfl
@[simp] theorem State.setMat_tab (j : MReg) (m : BitMatrix) : (s.setMat j m).tab = s.tab := rfl
@[simp] theorem State.setMat_tn (j : MReg) (m : BitMatrix) : (s.setMat j m).tn = s.tn := rfl
@[simp] theorem State.setMat_tbits (j : MReg) (m : BitMatrix) : (s.setMat j m).tbits = s.tbits := rfl
@[simp] theorem State.setMat_tbuilt (j : MReg) (m : BitMatrix) : (s.setMat j m).tbuilt = s.tbuilt := rfl
@[simp] theorem State.setMat_rng (j : MReg) (m : BitMatrix) : (s.setMat j m).rng = s.rng := rfl
@[simp] theorem State.setMat_err (j : MReg) (m : BitMatrix) : (s.setMat j m).err = s.err := rfl
@[simp] theorem State.setMat_ecmd (j : MReg) (m : BitMatrix) : (s.setMat j m).ecmd = s.ecmd := rfl
@[simp] theorem State.setMat_smax (j : MReg) (m : BitMatrix) : (s.setMat j m).smax = s.smax := rfl
@[simp] theorem State.setMat_cmd (j : MReg) (m : BitMatrix) : (s.setMat j m).cmd = s.cmd := rfl
@[simp] theorem State.setMat_resp (j : MReg) (m : BitMatrix) : (s.setMat j m).resp = s.resp := rfl
@[simp] theorem State.setMat_inputs (j : MReg) (m : BitMatrix) : (s.setMat j m).inputs = s.inputs := rfl
@[simp] theorem State.setMat_taken (j : MReg) (m : BitMatrix) : (s.setMat j m).taken = s.taken := rfl
@[simp] theorem State.setMat_free (j : MReg) (m : BitMatrix) : (s.setMat j m).free = s.free := rfl

@[simp] theorem State.setTable_mats (t : Table) (n b : Nat) : (s.setTable t n b).mats = s.mats := rfl
@[simp] theorem State.setTable_tab (t : Table) (n b : Nat) : (s.setTable t n b).tab = t := rfl
@[simp] theorem State.setTable_tn (t : Table) (n b : Nat) : (s.setTable t n b).tn = n := rfl
@[simp] theorem State.setTable_tbits (t : Table) (n b : Nat) : (s.setTable t n b).tbits = b := rfl
@[simp] theorem State.setTable_tbuilt (t : Table) (n b : Nat) : (s.setTable t n b).tbuilt = true := rfl
@[simp] theorem State.setTable_rng (t : Table) (n b : Nat) : (s.setTable t n b).rng = s.rng := rfl
@[simp] theorem State.setTable_err (t : Table) (n b : Nat) : (s.setTable t n b).err = s.err := rfl
@[simp] theorem State.setTable_ecmd (t : Table) (n b : Nat) : (s.setTable t n b).ecmd = s.ecmd := rfl
@[simp] theorem State.setTable_smax (t : Table) (n b : Nat) : (s.setTable t n b).smax = s.smax := rfl
@[simp] theorem State.setTable_cmd (t : Table) (n b : Nat) : (s.setTable t n b).cmd = s.cmd := rfl
@[simp] theorem State.setTable_resp (t : Table) (n b : Nat) : (s.setTable t n b).resp = s.resp := rfl
@[simp] theorem State.setTable_inputs (t : Table) (n b : Nat) : (s.setTable t n b).inputs = s.inputs := rfl
@[simp] theorem State.setTable_taken (t : Table) (n b : Nat) : (s.setTable t n b).taken = s.taken := rfl
@[simp] theorem State.setTable_free (t : Table) (n b : Nat) : (s.setTable t n b).free = s.free := rfl

@[simp] theorem State.setRng_mats (g : Config.RngState) : (s.setRng g).mats = s.mats := rfl
@[simp] theorem State.setRng_tab (g : Config.RngState) : (s.setRng g).tab = s.tab := rfl
@[simp] theorem State.setRng_tn (g : Config.RngState) : (s.setRng g).tn = s.tn := rfl
@[simp] theorem State.setRng_tbits (g : Config.RngState) : (s.setRng g).tbits = s.tbits := rfl
@[simp] theorem State.setRng_tbuilt (g : Config.RngState) : (s.setRng g).tbuilt = s.tbuilt := rfl
@[simp] theorem State.setRng_rng (g : Config.RngState) : (s.setRng g).rng = g := rfl
@[simp] theorem State.setRng_err (g : Config.RngState) : (s.setRng g).err = s.err := rfl
@[simp] theorem State.setRng_ecmd (g : Config.RngState) : (s.setRng g).ecmd = s.ecmd := rfl
@[simp] theorem State.setRng_smax (g : Config.RngState) : (s.setRng g).smax = s.smax := rfl
@[simp] theorem State.setRng_cmd (g : Config.RngState) : (s.setRng g).cmd = s.cmd := rfl
@[simp] theorem State.setRng_resp (g : Config.RngState) : (s.setRng g).resp = s.resp := rfl
@[simp] theorem State.setRng_inputs (g : Config.RngState) : (s.setRng g).inputs = s.inputs := rfl
@[simp] theorem State.setRng_taken (g : Config.RngState) : (s.setRng g).taken = s.taken := rfl
@[simp] theorem State.setRng_free (g : Config.RngState) : (s.setRng g).free = s.free := rfl

@[simp] theorem State.drew_mats : (s.drew).mats = s.mats := rfl
@[simp] theorem State.drew_tab : (s.drew).tab = s.tab := rfl
@[simp] theorem State.drew_tn : (s.drew).tn = s.tn := rfl
@[simp] theorem State.drew_tbits : (s.drew).tbits = s.tbits := rfl
@[simp] theorem State.drew_tbuilt : (s.drew).tbuilt = s.tbuilt := rfl
@[simp] theorem State.drew_rng : (s.drew).rng = s.rng := rfl
@[simp] theorem State.drew_err : (s.drew).err = s.err := rfl
@[simp] theorem State.drew_ecmd : (s.drew).ecmd = s.ecmd := rfl
@[simp] theorem State.drew_smax : (s.drew).smax = s.smax := rfl
@[simp] theorem State.drew_cmd : (s.drew).cmd = s.cmd := rfl
@[simp] theorem State.drew_resp : (s.drew).resp = s.resp := rfl
@[simp] theorem State.drew_inputs : (s.drew).inputs = s.inputs := rfl
@[simp] theorem State.drew_taken : (s.drew).taken = s.taken := rfl
@[simp] theorem State.drew_free : (s.drew).free = s.free + 1 := rfl

@[simp] theorem State.respond_mats (x : Word) : (s.respond x).mats = s.mats := rfl
@[simp] theorem State.respond_tab (x : Word) : (s.respond x).tab = s.tab := rfl
@[simp] theorem State.respond_tn (x : Word) : (s.respond x).tn = s.tn := rfl
@[simp] theorem State.respond_tbits (x : Word) : (s.respond x).tbits = s.tbits := rfl
@[simp] theorem State.respond_tbuilt (x : Word) : (s.respond x).tbuilt = s.tbuilt := rfl
@[simp] theorem State.respond_rng (x : Word) : (s.respond x).rng = s.rng := rfl
@[simp] theorem State.respond_err (x : Word) : (s.respond x).err = s.err := rfl
@[simp] theorem State.respond_ecmd (x : Word) : (s.respond x).ecmd = s.ecmd := rfl
@[simp] theorem State.respond_smax (x : Word) : (s.respond x).smax = s.smax := rfl
@[simp] theorem State.respond_cmd (x : Word) : (s.respond x).cmd = s.cmd := rfl
@[simp] theorem State.respond_resp (x : Word) : (s.respond x).resp = some { err := s.errCode, rdata := x } := rfl
@[simp] theorem State.respond_inputs (x : Word) : (s.respond x).inputs = s.inputs := rfl
@[simp] theorem State.respond_taken (x : Word) : (s.respond x).taken = s.taken := rfl
@[simp] theorem State.respond_free (x : Word) : (s.respond x).free = s.free := rfl

@[simp] theorem State.raise_mats (k : ErrKind) : (s.raise k).mats = s.mats := rfl
@[simp] theorem State.raise_tab (k : ErrKind) : (s.raise k).tab = s.tab := rfl
@[simp] theorem State.raise_tn (k : ErrKind) : (s.raise k).tn = s.tn := rfl
@[simp] theorem State.raise_tbits (k : ErrKind) : (s.raise k).tbits = s.tbits := rfl
@[simp] theorem State.raise_tbuilt (k : ErrKind) : (s.raise k).tbuilt = s.tbuilt := rfl
@[simp] theorem State.raise_rng (k : ErrKind) : (s.raise k).rng = s.rng := rfl
@[simp] theorem State.raise_err (k : ErrKind) : (s.raise k).err = some k := rfl
@[simp] theorem State.raise_ecmd (k : ErrKind) : (s.raise k).ecmd = s.inst := rfl
@[simp] theorem State.raise_smax (k : ErrKind) : (s.raise k).smax = s.smax := rfl
@[simp] theorem State.raise_cmd (k : ErrKind) : (s.raise k).cmd = s.cmd := rfl
@[simp] theorem State.raise_resp (k : ErrKind) : (s.raise k).resp = some { err := k.code, rdata := 0 } := rfl
@[simp] theorem State.raise_inputs (k : ErrKind) : (s.raise k).inputs = s.inputs := rfl
@[simp] theorem State.raise_taken (k : ErrKind) : (s.raise k).taken = s.taken := rfl
@[simp] theorem State.raise_free (k : ErrKind) : (s.raise k).free = s.free := rfl

@[simp] theorem State.applyReset_mats : (s.applyReset).mats = Vector.replicate 8 BitMatrix.empty := rfl
@[simp] theorem State.applyReset_tab : (s.applyReset).tab = [] := rfl
@[simp] theorem State.applyReset_tn : (s.applyReset).tn = 0 := rfl
@[simp] theorem State.applyReset_tbits : (s.applyReset).tbits = 0 := rfl
@[simp] theorem State.applyReset_tbuilt : (s.applyReset).tbuilt = false := rfl
@[simp] theorem State.applyReset_rng : (s.applyReset).rng = Config.rngAtReset s.free := rfl
@[simp] theorem State.applyReset_err : (s.applyReset).err = none := rfl
@[simp] theorem State.applyReset_ecmd : (s.applyReset).ecmd = 0 := rfl
@[simp] theorem State.applyReset_smax : (s.applyReset).smax = s.smax := rfl
@[simp] theorem State.applyReset_cmd : (s.applyReset).cmd = { inst := 0, op1 := 0, op2 := 0 } := rfl
@[simp] theorem State.applyReset_resp : (s.applyReset).resp = none := rfl
@[simp] theorem State.applyReset_inputs : (s.applyReset).inputs = s.inputs := rfl
@[simp] theorem State.applyReset_taken : (s.applyReset).taken = s.taken := rfl
@[simp] theorem State.applyReset_free : (s.applyReset).free = s.free + 1 := rfl

@[simp] theorem State.setInputs_mats (l : List PortEvent) : (s.setInputs l).mats = s.mats := rfl
@[simp] theorem State.setInputs_tab (l : List PortEvent) : (s.setInputs l).tab = s.tab := rfl
@[simp] theorem State.setInputs_tn (l : List PortEvent) : (s.setInputs l).tn = s.tn := rfl
@[simp] theorem State.setInputs_tbits (l : List PortEvent) : (s.setInputs l).tbits = s.tbits := rfl
@[simp] theorem State.setInputs_tbuilt (l : List PortEvent) : (s.setInputs l).tbuilt = s.tbuilt := rfl
@[simp] theorem State.setInputs_rng (l : List PortEvent) : (s.setInputs l).rng = s.rng := rfl
@[simp] theorem State.setInputs_err (l : List PortEvent) : (s.setInputs l).err = s.err := rfl
@[simp] theorem State.setInputs_ecmd (l : List PortEvent) : (s.setInputs l).ecmd = s.ecmd := rfl
@[simp] theorem State.setInputs_smax (l : List PortEvent) : (s.setInputs l).smax = s.smax := rfl
@[simp] theorem State.setInputs_cmd (l : List PortEvent) : (s.setInputs l).cmd = s.cmd := rfl
@[simp] theorem State.setInputs_resp (l : List PortEvent) : (s.setInputs l).resp = s.resp := rfl
@[simp] theorem State.setInputs_inputs (l : List PortEvent) : (s.setInputs l).inputs = l := rfl
@[simp] theorem State.setInputs_taken (l : List PortEvent) : (s.setInputs l).taken = s.taken := rfl
@[simp] theorem State.setInputs_free (l : List PortEvent) : (s.setInputs l).free = s.free := rfl

@[simp] theorem State.accept_mats (c : Command) : (s.accept c).mats = s.mats := rfl
@[simp] theorem State.accept_tab (c : Command) : (s.accept c).tab = s.tab := rfl
@[simp] theorem State.accept_tn (c : Command) : (s.accept c).tn = s.tn := rfl
@[simp] theorem State.accept_tbits (c : Command) : (s.accept c).tbits = s.tbits := rfl
@[simp] theorem State.accept_tbuilt (c : Command) : (s.accept c).tbuilt = s.tbuilt := rfl
@[simp] theorem State.accept_rng (c : Command) : (s.accept c).rng = s.rng := rfl
@[simp] theorem State.accept_err (c : Command) : (s.accept c).err = s.err := rfl
@[simp] theorem State.accept_ecmd (c : Command) : (s.accept c).ecmd = s.ecmd := rfl
@[simp] theorem State.accept_smax (c : Command) : (s.accept c).smax = s.smax := rfl
@[simp] theorem State.accept_cmd (c : Command) : (s.accept c).cmd = c := rfl
@[simp] theorem State.accept_resp (c : Command) : (s.accept c).resp = s.resp := rfl
@[simp] theorem State.accept_inputs (c : Command) : (s.accept c).inputs = s.inputs := rfl
@[simp] theorem State.accept_taken (c : Command) : (s.accept c).taken = s.taken := rfl
@[simp] theorem State.accept_free (c : Command) : (s.accept c).free = s.free := rfl

@[simp] theorem State.presentFirst_mats (c : Command) : (s.presentFirst c).mats = s.mats := rfl
@[simp] theorem State.presentFirst_tab (c : Command) : (s.presentFirst c).tab = s.tab := rfl
@[simp] theorem State.presentFirst_tn (c : Command) : (s.presentFirst c).tn = s.tn := rfl
@[simp] theorem State.presentFirst_tbits (c : Command) : (s.presentFirst c).tbits = s.tbits := rfl
@[simp] theorem State.presentFirst_tbuilt (c : Command) : (s.presentFirst c).tbuilt = s.tbuilt := rfl
@[simp] theorem State.presentFirst_rng (c : Command) : (s.presentFirst c).rng = s.rng := rfl
@[simp] theorem State.presentFirst_err (c : Command) : (s.presentFirst c).err = s.err := rfl
@[simp] theorem State.presentFirst_ecmd (c : Command) : (s.presentFirst c).ecmd = s.ecmd := rfl
@[simp] theorem State.presentFirst_smax (c : Command) : (s.presentFirst c).smax = s.smax := rfl
@[simp] theorem State.presentFirst_cmd (c : Command) : (s.presentFirst c).cmd = s.cmd := rfl
@[simp] theorem State.presentFirst_resp (c : Command) : (s.presentFirst c).resp = none := rfl
@[simp] theorem State.presentFirst_inputs (c : Command) : (s.presentFirst c).inputs = .command c :: s.inputs := rfl
@[simp] theorem State.presentFirst_taken (c : Command) : (s.presentFirst c).taken = s.taken := rfl
@[simp] theorem State.presentFirst_free (c : Command) : (s.presentFirst c).free = s.free := rfl

/-! Handing over a response. -/

@[simp] theorem State.handOver_mats : s.handOver.mats = s.mats := by
  unfold State.handOver; split <;> rfl
@[simp] theorem State.handOver_tab : s.handOver.tab = s.tab := by
  unfold State.handOver; split <;> rfl
@[simp] theorem State.handOver_tn : s.handOver.tn = s.tn := by
  unfold State.handOver; split <;> rfl
@[simp] theorem State.handOver_tbits : s.handOver.tbits = s.tbits := by
  unfold State.handOver; split <;> rfl
@[simp] theorem State.handOver_tbuilt : s.handOver.tbuilt = s.tbuilt := by
  unfold State.handOver; split <;> rfl
@[simp] theorem State.handOver_rng : s.handOver.rng = s.rng := by
  unfold State.handOver; split <;> rfl
@[simp] theorem State.handOver_err : s.handOver.err = s.err := by
  unfold State.handOver; split <;> rfl
@[simp] theorem State.handOver_ecmd : s.handOver.ecmd = s.ecmd := by
  unfold State.handOver; split <;> rfl
@[simp] theorem State.handOver_smax : s.handOver.smax = s.smax := by
  unfold State.handOver; split <;> rfl
@[simp] theorem State.handOver_cmd : s.handOver.cmd = s.cmd := by
  unfold State.handOver; split <;> rfl
@[simp] theorem State.handOver_inputs : s.handOver.inputs = s.inputs := by
  unfold State.handOver; split <;> rfl
@[simp] theorem State.handOver_free : s.handOver.free = s.free := by
  unfold State.handOver; split <;> rfl
@[simp] theorem State.handOver_resp : s.handOver.resp = none := by
  unfold State.handOver; split <;> simp_all
@[simp] theorem State.handOver_taken : s.handOver.taken = s.taken ++ s.resp.toList := by
  unfold State.handOver; split <;> simp_all

theorem State.handOver_some {r : Response} (h : s.resp = some r) :
    s.handOver = { s with resp := none, taken := s.taken ++ [r] } := by
  unfold State.handOver; rw [h]

theorem State.handOver_none (h : s.resp = none) : s.handOver = s := by
  unfold State.handOver; rw [h]

/-! The views. -/

@[simp] theorem State.mat_eq (j : MReg) : s.mats[j.val] = s.mat j := rfl

theorem State.mat_setMat (j k : MReg) (m : BitMatrix) :
    (s.setMat j m).mat k = if j = k then m else s.mat k := by
  simp only [State.mat, State.setMat, Fin.getElem_fin, Vector.getElem_set, Fin.ext_iff]

theorem State.mat_congr {s t : State} (h : t.mats = s.mats) (j : MReg) : t.mat j = s.mat j := by
  simp only [State.mat, h]

@[simp] theorem State.errCode_none (h : s.err = none) : s.errCode = 0 := by
  unfold State.errCode; rw [h]

theorem State.errCode_some {k : ErrKind} (h : s.err = some k) : s.errCode = k.code := by
  unfold State.errCode; rw [h]

theorem State.errCode_congr {s t : State} (h : t.err = s.err) : t.errCode = s.errCode := by
  unfold State.errCode; rw [h]

theorem ErrKind.code_ne_zero (k : ErrKind) : k.code ≠ 0 := by
  cases k <;> decide

@[simp] theorem State.csr_respond (x : Word) (n : Nat) : (s.respond x).csr n = s.csr n := rfl

@[simp] theorem State.csr_accept (c : Command) (n : Nat) : (s.accept c).csr n = s.csr n := rfl

@[simp] theorem State.csr_setInputs (l : List PortEvent) (n : Nat) : (s.setInputs l).csr n = s.csr n := rfl

end Sys2Proof.Machine
end

