-- ==== Sys2Proof/Laws/Ops.lean ====
section
/-!
SUPPORT. What the shared operation `State.perform` can answer, and each operand test as the condition of its
rule.
-/

namespace Sys2Proof.Machine

open Sys2Proof

variable {s t u : State} {k : ErrKind} {x : Word} {a : Answer}

theorem perform_ok (h : s.err = none) : s.perform (.ok (t, x)) = .next (t.respond x) := by
  simp [State.perform, h]

theorem perform_error (h : s.err = none) : s.perform (.error k) = .next (s.raise k) := by
  simp [State.perform, h]

theorem perform_faulted (h : s.err = some k) : s.perform a = .next (s.respond 0) := by
  simp [State.perform, h]

/-- Everything `perform` can answer (R244, R245). -/
theorem perform_cases (h : s.perform a = .next u) :
    (s.err ≠ none ∧ u = s.respond 0) ∨ (s.err = none ∧ ∃ k, a = .error k ∧ u = s.raise k) ∨
      (s.err = none ∧ ∃ t x, a = .ok (t, x) ∧ u = t.respond x) := by
  cases he : s.err with
  | some k => rw [perform_faulted he] at h; cases h; exact .inl ⟨by simp, rfl⟩
  | none =>
    match a with
    | .error k => rw [perform_error he] at h; cases h; exact .inr (.inl ⟨rfl, k, rfl, rfl⟩)
    | .ok (t, x) => rw [perform_ok he] at h; cases h; exact .inr (.inr ⟨rfl, t, x, rfl, rfl⟩)

/-- `perform` always answers a next state. -/
theorem perform_next (s : State) (a : Answer) : ∃ u, s.perform a = .next u := by
  unfold State.perform
  split
  · exact ⟨_, rfl⟩
  · split <;> exact ⟨_, rfl⟩

/-- A raise, as the record the statements write. -/
theorem raise_eq (s : State) (k : ErrKind) :
    s.raise k = { s with err := some k, ecmd := s.cmd.inst, resp := some { err := k.code, rdata := 0 } } := rfl

/-- A response outside the fault state, as the record the statements write. -/
theorem respond_eq (h : s.err = none) (x : Word) :
    s.respond x = { s with resp := some { err := 0, rdata := x } } := by
  rw [State.respond, State.errCode_none s h]

theorem dimsLegal_iff {r c : Imm7} : dimsLegal r c = true ↔ r.toNat ≤ 64 ∧ c.toNat ≤ 64 := by
  rw [dimsLegal, Bool.and_eq_true, decide_eq_true_iff, decide_eq_true_iff]; rfl

theorem hasEntry_iff {m : BitMatrix} {r c : Imm7} :
    m.hasEntry r c = true ↔ r.toNat < m.rows ∧ c.toNat < m.cols := by
  simp [BitMatrix.hasEntry]

theorem hasRow_iff {m : BitMatrix} {r : Imm7} : m.hasRow r = true ↔ r.toNat < m.rows := by
  simp [BitMatrix.hasRow]

theorem hasRegion_iff {m : BitMatrix} {rows cols ro co : Nat} :
    m.hasRegion rows cols ro co = true ↔ ro + rows ≤ m.rows ∧ co + cols ≤ m.cols := by
  simp [BitMatrix.hasRegion]

theorem channelLegal_iff {n : Imm7} {p : Word} :
    channelLegal n p = true ↔ n.toNat ≤ 64 ∧ p.toNat ≤ 2 ^ 32 := by
  rw [channelLegal, Bool.and_eq_true, decide_eq_true_iff, decide_eq_true_iff]; rfl

theorem csrLegal_iff {n : Imm7} : csrLegal n = true ↔ n.toNat ≤ 4 := by simp [csrLegal]

end Sys2Proof.Machine
end

