-- ==== Sys2Proof/Laws/Exec.lean ====
section
/-!
SUPPORT. What `exec` can do, said once for all commands: it answers a next state; it responds in the fault state,
raises its own kind, or responds after writing no more than its rule lists.
-/

namespace Sys2Proof.Machine

open Sys2Proof

/-- What the writes of command `i` may change, before the response is presented. -/
structure OnlyWrites (i : Instr) (s t : State) : Prop where
  mats : ∀ j, writesMat i ≠ some j → t.mat j = s.mat j
  table : (∀ ma, i ≠ .tbuild ma) → t.tab = s.tab ∧ t.tn = s.tn ∧ t.tbits = s.tbits ∧ t.tbuilt = s.tbuilt
  rng : (∀ w, i ≠ .chsend w) → i ≠ .chseed → t.rng = s.rng
  err : t.err = s.err
  ecmd : t.ecmd = s.ecmd
  smax : t.smax = s.smax
  cmd : t.cmd = s.cmd
  inputs : t.inputs = s.inputs
  taken : t.taken = s.taken

theorem OnlyWrites.self (i : Instr) (s : State) : OnlyWrites i s s := by
  constructor <;> intros <;> simp

theorem OnlyWrites.setMat {i : Instr} {md : MReg} (h : writesMat i = some md) (s : State) (m : BitMatrix) :
    OnlyWrites i s (s.setMat md m) where
  mats j hj := by rw [State.mat_setMat, if_neg fun e => hj (by rw [h, e])]
  table _ := ⟨rfl, rfl, rfl, rfl⟩
  rng _ _ := rfl
  err := rfl
  ecmd := rfl
  smax := rfl
  cmd := rfl
  inputs := rfl
  taken := rfl

theorem OnlyWrites.drew (i : Instr) (s : State) : OnlyWrites i s s.drew where
  mats _ _ := rfl
  table _ := ⟨rfl, rfl, rfl, rfl⟩
  rng _ _ := rfl
  err := rfl
  ecmd := rfl
  smax := rfl
  cmd := rfl
  inputs := rfl
  taken := rfl

/-- What a command's rule may give: its own kind of error, or writes within its rule. -/
def AnswerOk (i : Instr) (s : State) (a : Answer) : Prop :=
  (∀ k, a = .error k → raisesKind i = some k) ∧ ∀ t x, a = .ok (t, x) → OnlyWrites i s t

theorem AnswerOk.error {i : Instr} {s : State} {k : ErrKind} (h : raisesKind i = some k) :
    AnswerOk i s (.error k) :=
  ⟨fun _ e => by cases e; exact h, fun _ _ e => by cases e⟩

theorem AnswerOk.ok {i : Instr} {s t : State} {x : Word} (h : OnlyWrites i s t) : AnswerOk i s (.ok (t, x)) :=
  ⟨fun _ e => (nomatch e), fun _ _ e => by cases e; exact h⟩

theorem AnswerOk.ite {i : Instr} {s : State} {a b : Answer} {p : Prop} [Decidable p] (ha : AnswerOk i s a)
    (hb : AnswerOk i s b) : AnswerOk i s (if p then a else b) := by
  split <;> assumption

/-- Every command but a legal `RDCSR` ends in `perform`. -/
theorem exec_perform (i : Instr) (s : State) (hi : ∀ n, i = .rdcsr n → csrLegal n = false) :
    ∃ a, exec i s = s.perform a ∧ AnswerOk i s a := by
  cases i with
  | nop => exact ⟨_, rfl, .ok (.self _ s)⟩
  | rdcsr n =>
    refine ⟨.error .illegalCommand, ?_, .error rfl⟩
    simp [exec, execRdcsr, hi n rfl]
  | mzero md rows cols => exact ⟨_, rfl, .ite (.ok (.setMat rfl s _)) (.error rfl)⟩
  | mident md rows cols => exact ⟨_, rfl, .ite (.ok (.setMat rfl s _)) (.error rfl)⟩
  | mdim ma => exact ⟨_, rfl, .ok (.self _ s)⟩
  | get ma row col => exact ⟨_, rfl, .ite (.ok (.self _ s)) (.error rfl)⟩
  | set md row col b => exact ⟨_, rfl, .ite (.ok (.setMat rfl s _)) (.error rfl)⟩
  | rowrd ma row => exact ⟨_, rfl, .ite (.ok (.self _ s)) (.error rfl)⟩
  | rowwr md row => exact ⟨_, rfl, .ite (.ite (.error rfl) (.ok (.setMat rfl s _))) (.error rfl)⟩
  | mulr ma => exact ⟨_, rfl, .ite (.ok (.drew _ s)) (.ok (.self _ s))⟩
  | extract md ma rows cols => exact ⟨_, rfl, .ite (.ok (.setMat rfl s _)) (.error rfl)⟩
  | append md ma mb => exact ⟨_, rfl, .ite (.ok (.setMat rfl s _)) (.error rfl)⟩
  | transp md ma => exact ⟨_, rfl, .ok (.setMat rfl s _)⟩
  | rowxor md dst src => exact ⟨_, rfl, .ite (.ok (.setMat rfl s _)) (.error rfl)⟩
  | rowswap md r1 r2 => exact ⟨_, rfl, .ite (.ok (.setMat rfl s _)) (.error rfl)⟩
  | rref md ma => exact ⟨_, rfl, .ok (.setMat rfl s _)⟩
  | deriveh md ma => exact ⟨_, rfl, .ite (.error rfl) (.ok (.setMat rfl s _))⟩
  | tbuild ma =>
    refine ⟨_, rfl, .ite (.error rfl) (.ok ?_)⟩
    exact ⟨fun _ _ => rfl, fun h => absurd rfl (h ma), fun _ _ => rfl, rfl, rfl, rfl, rfl, rfl, rfl⟩
  | tlookup => exact ⟨_, rfl, .ok (.self _ s)⟩
  | decode ma => exact ⟨_, rfl, .ite (.error rfl) (.ite (.ok (.drew _ s)) (.ok (.self _ s)))⟩
  | chsend width =>
    refine ⟨_, rfl, .ite (.ok ?_) (.error rfl)⟩
    exact ⟨fun _ _ => rfl, fun _ => ⟨rfl, rfl, rfl, rfl⟩, fun h _ => absurd rfl (h width), rfl, rfl, rfl, rfl, rfl,
      rfl⟩
  | chseed =>
    refine ⟨_, rfl, .ok ?_⟩
    exact ⟨fun _ _ => rfl, fun _ => ⟨rfl, rfl, rfl, rfl⟩, fun _ h => absurd rfl h, rfl, rfl, rfl, rfl, rfl, rfl⟩

/-- `RDCSR` of a legal number, in every state. -/
theorem exec_rdcsr {n : Imm7} (h : csrLegal n = true) (s : State) :
    exec (.rdcsr n) s = .next (s.respond (s.csr n.toNat)) := by
  simp [exec, execRdcsr, h]

/-- Everything a command can do. -/
theorem exec_cases {i : Instr} {s u : State} (h : exec i s = .next u) :
    (∃ x, s.err ≠ none ∧ u = s.respond x) ∨
      (∃ k, s.err = none ∧ raisesKind i = some k ∧ u = s.raise k) ∨
      ∃ t x, s.err = none ∧ OnlyWrites i s t ∧ u = t.respond x := by
  by_cases hi : ∀ n, i = .rdcsr n → csrLegal n = false
  · obtain ⟨a, ha, hok⟩ := exec_perform i s hi
    rw [ha] at h
    rcases perform_cases h with ⟨he, rfl⟩ | ⟨he, k, rfl, rfl⟩ | ⟨he, t, x, rfl, rfl⟩
    · exact .inl ⟨0, he, rfl⟩
    · exact .inr (.inl ⟨k, he, hok.1 k rfl, rfl⟩)
    · exact .inr (.inr ⟨t, x, he, hok.2 t x rfl, rfl⟩)
  · obtain ⟨n, rfl, hn⟩ : ∃ n, i = .rdcsr n ∧ csrLegal n = true := by simpa using hi
    rw [exec_rdcsr hn] at h
    cases h
    by_cases he : s.err = none
    · exact .inr (.inr ⟨s, _, he, .self _ s, rfl⟩)
    · exact .inl ⟨_, he, rfl⟩

/-- Every command answers a next state. -/
theorem exec_next (i : Instr) (s : State) : ∃ u, exec i s = .next u := by
  by_cases hi : ∀ n, i = .rdcsr n → csrLegal n = false
  · obtain ⟨a, ha, _⟩ := exec_perform i s hi
    rw [ha]; exact perform_next s a
  · obtain ⟨n, rfl, hn⟩ : ∃ n, i = .rdcsr n ∧ csrLegal n = true := by simpa using hi
    exact ⟨_, exec_rdcsr hn s⟩

end Sys2Proof.Machine
end

