-- ==== Sys2Proof/Laws/Matrix.lean ====
section
/-!
SUPPORT. What each operation on matrix values gives: dimensions, entries, and that the result is again a matrix
in the sense of spec 10_state.md R21. Callers cite these and unfold no operation.
-/

namespace Sys2Proof.Machine

open Sys2Proof

namespace Mat

variable {m a o g : BitMatrix} {r c p : Nat}

@[simp] theorem rows_mk (cols : Nat) (w : List Word) : BitMatrix.rows ⟨cols, w⟩ = w.length := rfl

theorem row_of_lt (h : r < m.rows) : m.row r = m.w[r] := by
  simp [BitMatrix.row, List.getD_eq_getElem?_getD, h]

theorem row_of_getElem? {x : Word} (h : m.w[r]? = some x) : m.row r = x := by
  simp [BitMatrix.row, List.getD_eq_getElem?_getD, h]

theorem row_of_ge (h : m.rows ≤ r) : m.row r = 0 := by
  simp [BitMatrix.row, List.getD_eq_getElem?_getD, List.getElem?_eq_none h]

theorem row_shift (hm : m.wf) (r : Nat) : m.row r >>> m.cols = 0 := by
  by_cases h : r < m.rows
  · rw [row_of_lt h]; exact hm.2.2 _ (List.getElem_mem _)
  · rw [row_of_ge (by omega)]; simp

theorem row_getLsbD_high (hm : m.wf) (r : Nat) (h : m.cols ≤ p) : (m.row r).getLsbD p = false :=
  (ushiftRight_eq_zero_iff _ _).mp (row_shift hm r) p h

theorem bit_eq (r c : Nat) : m.bit r c = (m.row r).getLsbD (m.cols - 1 - c) := rfl

theorem row_getLsbD (h : p < m.cols) : (m.row r).getLsbD p = m.bit r (m.cols - 1 - p) := by
  rw [bit_eq, show m.cols - 1 - (m.cols - 1 - p) = p by omega]

theorem row_mk (cols : Nat) (w : List Word) (r : Nat) : BitMatrix.row ⟨cols, w⟩ r = w.getD r 0 := rfl

/-- Two matrices with the same dimensions and the same entries are equal. -/
theorem ext (ha : a.wf) (ho : o.wf) (hr : a.rows = o.rows) (hc : a.cols = o.cols)
    (h : ∀ r c, r < a.rows → c < a.cols → a.bit r c = o.bit r c) : a = o := by
  cases a with | mk ac aw => cases o with | mk oc ow =>
  simp only at hc; subst hc
  congr 1
  refine List.ext_getElem hr fun r h1 h2 => ?_
  apply BitVec.eq_of_getLsbD_eq
  intro p hp
  have ea := row_of_lt (m := ⟨ac, aw⟩) h1
  have eo := row_of_lt (m := ⟨ac, ow⟩) h2
  rw [← ea, ← eo]
  by_cases hpc : p < ac
  · rw [row_getLsbD (m := ⟨ac, aw⟩) hpc, row_getLsbD (m := ⟨ac, ow⟩) hpc]
    exact h r _ h1 (by simp only; omega)
  · rw [row_getLsbD_high ha r (by simpa using hpc), row_getLsbD_high ho r (by simpa using hpc)]

/-! A row replaced. -/

theorem setRow_rows (x : Word) : (m.setRow r x).rows = m.rows := by simp [BitMatrix.setRow, BitMatrix.rows]

theorem setRow_cols (x : Word) : (m.setRow r x).cols = m.cols := rfl

theorem setRow_row {q : Nat} (x : Word) (hq : q < m.rows) :
    (m.setRow r x).row q = if r = q then x else m.row q := by
  simp only [BitMatrix.setRow, BitMatrix.row, List.getD_eq_getElem?_getD, List.getElem?_set]
  by_cases h : r = q <;> simp [h, hq]

theorem setRow_wf (hm : m.wf) {x : Word} (hx : x >>> m.cols = 0) : (m.setRow r x).wf := by
  refine ⟨by rw [setRow_rows]; exact hm.1, hm.2.1, fun y hy => ?_⟩
  rcases List.mem_or_eq_of_mem_set hy with h | h
  · exact hm.2.2 y h
  · rw [h]; exact hx

theorem xor_shift {x y : Word} {n : Nat} (hx : x >>> n = 0) (hy : y >>> n = 0) : (x ^^^ y) >>> n = 0 := by
  rw [BitVec.ushiftRight_xor_distrib, hx, hy]; rfl

/-! Constructions. -/

theorem zero_wf {rows cols : Nat} (hr : rows ≤ 64) (hc : cols ≤ 64) : (BitMatrix.zero rows cols).wf := by
  refine ⟨by simpa [BitMatrix.zero], hc, fun x hx => ?_⟩
  rw [List.eq_of_mem_replicate hx]; simp

theorem ident_rows (rows cols : Nat) : (BitMatrix.ident rows cols).rows = rows := by
  simp [BitMatrix.ident]

theorem ident_bit {rows cols : Nat} (hr : r < rows) (hc : c < cols) (h64 : cols ≤ 64) :
    (BitMatrix.ident rows cols).bit r c = decide (r = c) := by
  rw [bit_eq]
  simp only [BitMatrix.ident, row_mk, List.getD_eq_getElem?_getD, List.getElem?_map,
    List.getElem?_range hr, Option.map_some, Option.getD_some]
  by_cases hrc : r < cols
  · rw [if_pos hrc, getLsbD_oneAt]
    by_cases h : r = c
    · subst h; simp; omega
    · simp [h]; omega
  · rw [if_neg hrc]; simp; omega

theorem ident_wf {rows cols : Nat} (hr : rows ≤ 64) (hc : cols ≤ 64) : (BitMatrix.ident rows cols).wf := by
  refine ⟨by rw [ident_rows]; exact hr, hc, fun x hx => ?_⟩
  simp only [BitMatrix.ident, List.mem_map, List.mem_range] at hx
  obtain ⟨q, _, rfl⟩ := hx
  rw [ushiftRight_eq_zero_iff]
  intro p hp
  have hp : cols ≤ p := hp
  split
  · rw [getLsbD_oneAt]; simp; omega
  · simp

/-! The product. -/

theorem mulr_eq (m : BitMatrix) (v : Word) : m.mulr v = packBits (m.w.map fun x => parity (x &&& v)) := rfl

theorem mulr_shift (h : m.rows ≤ 64) (v : Word) : m.mulr v >>> m.rows = 0 := by
  rw [mulr_eq]
  simpa using packBits_shift (m.w.map fun x => parity (x &&& v)) (by simpa using h)

/-- Row `r` of the product, as a parity. -/
theorem mulr_getLsbD (h : m.rows ≤ 64) (v : Word) (hr : r < m.rows) :
    (m.mulr v).getLsbD (m.rows - 1 - r) = parity (m.row r &&& v) := by
  rw [mulr_eq, getLsbD_packBits _ (by simpa using h)]
  have hr' : r < m.w.length := hr
  simp only [List.length_map]
  rw [show m.w.length - 1 - (m.rows - 1 - r) = r by simp only [BitMatrix.rows]; omega, row_of_lt hr,
    decide_eq_true (show m.rows - 1 - r < m.w.length by simp only [BitMatrix.rows]; omega)]
  simp [List.getD_eq_getElem?_getD, hr']

/-- The parity of a row and a vector, as a sum over the columns (R114). -/
theorem parity_row (hm : m.wf) (v : Word) (r : Nat) :
    parity (m.row r &&& v) = xorSum m.cols fun c => m.bit r c && v.getLsbD (m.cols - 1 - c) := by
  rw [parity_eq_xorSum, xorSum_extend (n := m.cols) hm.2.1, ← xorSum_reverse]
  · refine xorSum_congr fun i hi => ?_
    rw [BitVec.getLsbD_and, bit_eq]
  · intro i hi _
    rw [BitVec.getLsbD_and, row_getLsbD_high hm r hi]; rfl

/-- Entry by entry, `MULR` is the matrix-vector product (R114). -/
theorem mulr_bit (hm : m.wf) (v : Word) (hr : r < m.rows) :
    (m.mulr v).getLsbD (m.rows - 1 - r) = xorSum m.cols fun c => m.bit r c && v.getLsbD (m.cols - 1 - c) := by
  rw [mulr_getLsbD hm.1 v hr, parity_row hm]

/-- Two words of `n` bits are equal when their bits are, counted from the most significant end. -/
theorem word_ext {n : Nat} {x y : Word} (hx : x >>> n = 0) (hy : y >>> n = 0)
    (h : ∀ i, i < n → x.getLsbD (n - 1 - i) = y.getLsbD (n - 1 - i)) : x = y := by
  apply BitVec.eq_of_getLsbD_eq
  intro p _
  by_cases hp : p < n
  · have := h (n - 1 - p) (by omega)
    rwa [show n - 1 - (n - 1 - p) = p by omega] at this
  · rw [(ushiftRight_eq_zero_iff _ _).mp hx p (by omega), (ushiftRight_eq_zero_iff _ _).mp hy p (by omega)]

@[simp] theorem mulr_zero (hm : m.rows ≤ 64) : m.mulr 0 = 0 := by
  refine word_ext (mulr_shift hm 0) (by simp) fun i hi => ?_
  rw [mulr_getLsbD hm 0 hi, show m.row i &&& 0 = 0 from BitVec.and_zero, parity_zero]
  exact BitVec.getLsbD_zero.symm

/-! Submatrix, concatenation, transpose. -/

theorem extract_rows (rows cols ro co : Nat) : (m.extract rows cols ro co).rows = rows := by
  simp [BitMatrix.extract]

theorem extract_cols (rows cols ro co : Nat) : (m.extract rows cols ro co).cols = cols := rfl

theorem extract_row {rows cols ro co : Nat} (hr : r < rows) :
    (m.extract rows cols ro co).row r = (m.row (ro + r) >>> (m.cols - co - cols)) &&& mask cols := by
  simp [BitMatrix.extract, row_mk, List.getD_eq_getElem?_getD, hr]

theorem extract_bit {rows cols ro co : Nat} (hr : r < rows) (hc : c < cols) (hcol : co + cols ≤ m.cols)
    (h64 : m.cols ≤ 64) : (m.extract rows cols ro co).bit r c = m.bit (ro + r) (co + c) := by
  rw [bit_eq, extract_row hr, extract_cols, BitVec.getLsbD_and, BitVec.getLsbD_ushiftRight,
    getLsbD_mask (by omega), bit_eq,
    show m.cols - co - cols + (cols - 1 - c) = m.cols - 1 - (co + c) by omega]
  simp; omega

theorem extract_wf {rows cols ro co : Nat} (hr : rows ≤ 64) (hc : cols ≤ 64) :
    (m.extract rows cols ro co).wf := by
  refine ⟨by rw [extract_rows]; exact hr, hc, fun x hx => ?_⟩
  simp only [BitMatrix.extract, List.mem_map, List.mem_range] at hx
  obtain ⟨q, _, rfl⟩ := hx
  rw [ushiftRight_eq_zero_iff]
  intro p hp
  have hp : cols ≤ p := hp
  rw [BitVec.getLsbD_and, getLsbD_mask hc]; simp; omega

theorem append_rows (h : a.rows = o.rows) : (a.append o).rows = a.rows := by
  simp only [BitMatrix.rows, BitMatrix.append, List.length_zipWith]
  simp only [BitMatrix.rows] at h; omega

theorem append_cols : (a.append o).cols = a.cols + o.cols := rfl

theorem append_row (h : a.rows = o.rows) (hr : r < a.rows) :
    (a.append o).row r = a.row r <<< o.cols ||| o.row r := by
  have hr' : r < o.rows := h ▸ hr
  rw [row_of_lt hr, row_of_lt hr']
  simp [BitMatrix.append, row_mk, List.getD_eq_getElem?_getD, hr, hr']

theorem append_bit (ho : o.wf) (h : a.rows = o.rows) (h64 : a.cols + o.cols ≤ 64)
    (hr : r < a.rows) (hc : c < a.cols + o.cols) :
    (a.append o).bit r c = if c < a.cols then a.bit r c else o.bit r (c - a.cols) := by
  rw [bit_eq, append_row h hr, append_cols, BitVec.getLsbD_or, BitVec.getLsbD_shiftLeft]
  by_cases hca : c < a.cols
  · rw [if_pos hca, row_getLsbD_high ho r (by omega), bit_eq,
      show a.cols + o.cols - 1 - c - o.cols = a.cols - 1 - c by omega]
    simp; omega
  · rw [if_neg hca, bit_eq, show a.cols + o.cols - 1 - c = o.cols - 1 - (c - a.cols) by omega]
    simp; omega

theorem append_wf (ha : a.wf) (ho : o.wf) (h : a.rows = o.rows) (h64 : a.cols + o.cols ≤ 64) :
    (a.append o).wf := by
  refine ⟨by rw [append_rows h]; exact ha.1, h64, fun x hx => ?_⟩
  obtain ⟨r, hr, rfl⟩ := List.mem_iff_getElem.mp hx
  have hra : r < a.rows := by rw [← append_rows h]; exact hr
  rw [← row_of_lt hr, append_row h hra, ushiftRight_eq_zero_iff]
  intro p hp
  have hp : a.cols + o.cols ≤ p := hp
  rw [BitVec.getLsbD_or, BitVec.getLsbD_shiftLeft, row_getLsbD_high ho r (by omega),
    row_getLsbD_high ha r (show a.cols ≤ p - o.cols by omega)]
  simp

theorem transpose_rows : a.transpose.rows = a.cols := by simp [BitMatrix.transpose]

theorem transpose_cols : a.transpose.cols = a.rows := rfl

theorem transpose_row {j : Nat} (hj : j < a.cols) :
    a.transpose.row j = packBits ((List.range a.rows).map fun i => a.bit i j) := by
  simp [BitMatrix.transpose, row_mk, List.getD_eq_getElem?_getD, hj]

theorem transpose_bit {i j : Nat} (h64 : a.rows ≤ 64) (hi : i < a.rows) (hj : j < a.cols) :
    a.transpose.bit j i = a.bit i j := by
  rw [bit_eq, transpose_row hj, transpose_cols, getLsbD_packBits _ (by simpa using h64)]
  simp only [List.length_map, List.length_range]
  rw [show a.rows - 1 - (a.rows - 1 - i) = i by omega]
  simp [List.getD_eq_getElem?_getD, hi]; omega

theorem transpose_wf (ha : a.wf) : a.transpose.wf := by
  refine ⟨by rw [transpose_rows]; exact ha.2.1, ha.1, fun x hx => ?_⟩
  simp only [BitMatrix.transpose, List.mem_map, List.mem_range] at hx
  obtain ⟨j, _, rfl⟩ := hx
  rw [transpose_cols]
  simpa using packBits_shift ((List.range a.rows).map fun i => a.bit i j) (by simpa using ha.1)

/-! The control matrix of a generator of legal shape (R140). -/

theorem derive_parts (hg : g.wf) (hk : g.rows ≤ g.cols) :
    let at' := (g.extract g.rows (g.cols - g.rows) 0 g.rows).transpose
    let id' := BitMatrix.ident (g.cols - g.rows) (g.cols - g.rows)
    at'.wf ∧ id'.wf ∧ at'.rows = id'.rows ∧ at'.rows = g.cols - g.rows ∧ at'.cols = g.rows ∧
      id'.cols = g.cols - g.rows := by
  have h1 := hg.1
  have h2 := hg.2.1
  refine ⟨transpose_wf (extract_wf h1 (by omega)), ident_wf (by omega) (by omega), ?_, ?_, ?_, rfl⟩
  · rw [transpose_rows, extract_cols, ident_rows]
  · rw [transpose_rows, extract_cols]
  · rw [transpose_cols, extract_rows]

theorem derive_rows (hg : g.wf) (hk : g.rows ≤ g.cols) : g.deriveControl.rows = g.cols - g.rows := by
  obtain ⟨_, _, h3, h4, _, _⟩ := derive_parts hg hk
  exact (append_rows h3).trans h4

theorem derive_cols (hg : g.wf) (hk : g.rows ≤ g.cols) : g.deriveControl.cols = g.cols := by
  obtain ⟨_, _, _, _, h5, h6⟩ := derive_parts hg hk
  have : g.deriveControl.cols = _ := append_cols
  rw [this, h5, h6]; omega

theorem derive_wf (hg : g.wf) (hk : g.rows ≤ g.cols) : g.deriveControl.wf := by
  obtain ⟨h1, h2, h3, _, h5, h6⟩ := derive_parts hg hk
  refine append_wf h1 h2 h3 ?_
  have := hg.2.1
  rw [h5, h6]; omega

theorem derive_bit (hg : g.wf) (hk : g.rows ≤ g.cols) (hr : r < g.cols - g.rows) (hc : c < g.cols) :
    g.deriveControl.bit r c = if c < g.rows then g.bit c (g.rows + r) else decide (c - g.rows = r) := by
  obtain ⟨h1, h2, h3, h4, h5, h6⟩ := derive_parts hg hk
  have h64 := hg.2.1
  have := append_bit h2 h3 (by rw [h5, h6]; omega) (r := r) (c := c) (by rw [h4]; exact hr)
    (by rw [h5, h6]; omega)
  rw [BitMatrix.deriveControl, this, h5]
  by_cases hck : c < g.rows
  · rw [if_pos hck, if_pos hck,
      transpose_bit (by rw [extract_rows]; exact hg.1) (by rw [extract_rows]; exact hck)
        (by rw [extract_cols]; exact hr),
      extract_bit hck hr (by omega) h64, Nat.zero_add]
  · rw [if_neg hck, if_neg hck, ident_bit hr (by omega) (by omega)]
    simp [eq_comm]

end Mat

end Sys2Proof.Machine
end

