-- ==== Sys2Proof/Laws/Rref.lean ====
section
/-!
SUPPORT. The row operations: what one elementary operation, one column of the elimination and the whole
elimination keep (dimensions, and a matrix in the sense of spec 10_state.md R21), and the rows they give.
-/

namespace Sys2Proof.Machine

open Sys2Proof

namespace Mat

variable {m : BitMatrix} {p q c i : Nat}

theorem rowXor_rows (dst src : Nat) : (m.rowXor dst src).rows = m.rows := setRow_rows _

theorem rowXor_cols (dst src : Nat) : (m.rowXor dst src).cols = m.cols := rfl

theorem rowXor_wf (hm : m.wf) (dst src : Nat) : (m.rowXor dst src).wf :=
  setRow_wf hm (xor_shift (row_shift hm _) (row_shift hm _))

theorem rowSwap_rows (r1 r2 : Nat) : (m.rowSwap r1 r2).rows = m.rows := by
  rw [BitMatrix.rowSwap, setRow_rows, setRow_rows]

theorem rowSwap_cols (r1 r2 : Nat) : (m.rowSwap r1 r2).cols = m.cols := rfl

theorem rowSwap_row {r1 r2 : Nat} (hi : i < m.rows) :
    (m.rowSwap r1 r2).row i = if r2 = i then m.row r1 else if r1 = i then m.row r2 else m.row i := by
  rw [BitMatrix.rowSwap, setRow_row _ (by rw [setRow_rows]; exact hi), setRow_row _ hi]

theorem rowSwap_wf (hm : m.wf) (r1 r2 : Nat) : (m.rowSwap r1 r2).wf :=
  setRow_wf (setRow_wf hm (row_shift hm _)) (row_shift hm _)

theorem clearColumn_rows (p c : Nat) : (m.clearColumn p c).rows = m.rows := by simp [BitMatrix.clearColumn]

theorem clearColumn_cols (p c : Nat) : (m.clearColumn p c).cols = m.cols := rfl

theorem clearColumn_row (hi : i < m.rows) :
    (m.clearColumn p c).row i = if i ≠ p ∧ m.bit i c = true then m.row i ^^^ m.row p else m.row i := by
  rw [BitMatrix.clearColumn, row_mk, List.getD_eq_getElem?_getD, List.getElem?_map, List.getElem?_range hi]
  simp

theorem clearColumn_wf (hm : m.wf) (p c : Nat) : (m.clearColumn p c).wf := by
  refine ⟨by rw [clearColumn_rows]; exact hm.1, hm.2.1, fun x hx => ?_⟩
  simp only [BitMatrix.clearColumn, List.mem_map] at hx
  obtain ⟨i, _, rfl⟩ := hx
  rw [clearColumn_cols]
  split
  · exact xor_shift (row_shift hm _) (row_shift hm _)
  · exact row_shift hm _

/-! The row space (R214): each elementary operation keeps it. -/

theorem span_add {ws : List Word} {x y : Word} (hx : InRowSpace ws x) (hy : InRowSpace ws y) :
    InRowSpace ws (x ^^^ y) := by
  induction hy with
  | zero => simpa using hx
  | add a b _ hb ih => rw [← BitVec.xor_assoc]; exact .add _ _ ih hb

theorem span_mono {ws vs : List Word} (h : ∀ x ∈ vs, InRowSpace ws x) {y : Word} (hy : InRowSpace vs y) :
    InRowSpace ws y := by
  induction hy with
  | zero => exact .zero
  | add a b _ hb ih => exact span_add ih (h b hb)

theorem span_row (hi : i < m.rows) : InRowSpace m.w (m.row i) := by
  have := InRowSpace.add (ws := m.w) 0 (m.row i) .zero (by rw [row_of_lt hi]; exact List.getElem_mem _)
  simpa using this

theorem exists_row_of_mem {x : Word} (h : x ∈ m.w) : ∃ i, i < m.rows ∧ x = m.row i := by
  obtain ⟨i, hi, rfl⟩ := List.mem_iff_getElem.mp h
  exact ⟨i, hi, (row_of_lt hi).symm⟩

theorem rowSwap_span {r1 r2 : Nat} (h1 : r1 < m.rows) (h2 : r2 < m.rows) (y : Word) :
    InRowSpace (m.rowSwap r1 r2).w y ↔ InRowSpace m.w y := by
  constructor
  · refine span_mono fun x hx => ?_
    obtain ⟨i, hi, rfl⟩ := exists_row_of_mem hx
    rw [rowSwap_rows] at hi
    rw [rowSwap_row hi]
    split
    · exact span_row h1
    · split
      · exact span_row h2
      · exact span_row hi
  · refine span_mono fun x hx => ?_
    obtain ⟨i, hi, rfl⟩ := exists_row_of_mem hx
    have r : ∀ j, j < m.rows → InRowSpace (m.rowSwap r1 r2).w ((m.rowSwap r1 r2).row j) :=
      fun j hj => span_row (by rw [rowSwap_rows]; exact hj)
    by_cases e1 : i = r1
    · subst e1
      have := r r2 h2
      rw [rowSwap_row h2, if_pos rfl] at this
      exact this
    · by_cases e2 : i = r2
      · subst e2
        have := r r1 h1
        rw [rowSwap_row h1, if_neg e1, if_pos rfl] at this
        exact this
      · have := r i hi
        rw [rowSwap_row hi, if_neg (Ne.symm e2), if_neg (Ne.symm e1)] at this
        exact this

theorem clearColumn_span (c : Nat) (hp : p < m.rows) (y : Word) :
    InRowSpace (m.clearColumn p c).w y ↔ InRowSpace m.w y := by
  constructor
  · refine span_mono fun x hx => ?_
    obtain ⟨i, hi, rfl⟩ := exists_row_of_mem hx
    rw [clearColumn_rows] at hi
    rw [clearColumn_row hi]
    split
    · exact span_add (span_row hi) (span_row hp)
    · exact span_row hi
  · refine span_mono fun x hx => ?_
    obtain ⟨i, hi, rfl⟩ := exists_row_of_mem hx
    have r : ∀ j, j < m.rows → InRowSpace (m.clearColumn p c).w ((m.clearColumn p c).row j) :=
      fun j hj => span_row (by rw [clearColumn_rows]; exact hj)
    have hpr := r p hp
    rw [clearColumn_row hp, if_neg (by simp)] at hpr
    have := r i hi
    rw [clearColumn_row hi] at this
    split at this
    · have := span_add this hpr
      rwa [BitVec.xor_assoc, BitVec.xor_self, BitVec.xor_zero] at this
    · exact this

/-- What the search for a pivot finds (R214). -/
theorem pivotRow_some (h : m.pivotRow p c = some q) : q < m.rows ∧ p ≤ q ∧ m.bit q c = true := by
  have h1 := List.mem_of_find?_eq_some h
  have h2 := List.find?_some h
  simp only [Bool.and_eq_true, decide_eq_true_eq] at h2
  exact ⟨List.mem_range.mp h1, h2.1, h2.2⟩

theorem pivotRow_none (h : m.pivotRow p c = none) (h1 : p ≤ i) (h2 : i < m.rows) : m.bit i c = false := by
  have := List.find?_eq_none.mp h i (List.mem_range.mpr h2)
  simpa [h1] using this

/-- Everything one column of the elimination can do (R214). -/
theorem rrefColumn_cases (m : BitMatrix) (piv : List Nat) (c : Nat) :
    (rrefColumn m piv c = (m, piv) ∧
        (piv.length = m.rows ∨ ∀ i, piv.length ≤ i → i < m.rows → m.bit i c = false)) ∨
      ∃ q, q < m.rows ∧ piv.length ≤ q ∧ m.bit q c = true ∧
        rrefColumn m piv c = ((m.rowSwap piv.length q).clearColumn piv.length c, piv ++ [c]) := by
  unfold rrefColumn
  split
  · next h => exact .inl ⟨rfl, .inl h⟩
  · split
    · next h => exact .inl ⟨rfl, .inr fun i h1 h2 => pivotRow_none h h1 h2⟩
    · next q h =>
      obtain ⟨h1, h2, h3⟩ := pivotRow_some h
      exact .inr ⟨q, h1, h2, h3, rfl⟩

theorem rrefColumns_dims (m : BitMatrix) (piv cs : List Nat) :
    (rrefColumns m piv cs).1.rows = m.rows ∧ (rrefColumns m piv cs).1.cols = m.cols := by
  induction cs generalizing m piv with
  | nil => exact ⟨rfl, rfl⟩
  | cons c cs ih =>
    rw [rrefColumns, (ih _ _).1, (ih _ _).2]
    rcases rrefColumn_cases m piv c with ⟨h, _⟩ | ⟨q, _, _, _, h⟩
    · rw [h]; exact ⟨rfl, rfl⟩
    · rw [h]; exact ⟨by rw [clearColumn_rows, rowSwap_rows], rfl⟩

theorem rrefColumns_wf (hm : m.wf) (piv cs : List Nat) : (rrefColumns m piv cs).1.wf := by
  induction cs generalizing m piv with
  | nil => exact hm
  | cons c cs ih =>
    rw [rrefColumns]
    refine ih ?_ _
    rcases rrefColumn_cases m piv c with ⟨h, _⟩ | ⟨q, _, _, _, h⟩
    · rw [h]; exact hm
    · rw [h]; exact clearColumn_wf (rowSwap_wf hm _ _) _ _

theorem rref_rows (m : BitMatrix) : m.rref.1.rows = m.rows := (rrefColumns_dims m [] _).1

theorem rref_cols (m : BitMatrix) : m.rref.1.cols = m.cols := (rrefColumns_dims m [] _).2

theorem rref_wf (hm : m.wf) : m.rref.1.wf := rrefColumns_wf hm [] _

end Mat

end Sys2Proof.Machine
end

