-- ==== Sys2Proof/Laws/Step.lean ====
section
/-!
SUPPORT. What one step can do, and what each shared operation does to the invariant of the machine.
-/

namespace Sys2Proof.Machine

open Sys2Proof

variable {s t : State} {c : Command} {rest : List PortEvent}

/-! What happens next at the ports. -/

theorem nextEvent_nil (h : s.inputs = []) : s.nextEvent = none := by
  unfold State.nextEvent; rw [h]

theorem nextEvent_rst (h : s.inputs = .rst :: rest) : s.nextEvent = some (.rst, rest) := by
  unfold State.nextEvent; rw [h]

theorem nextEvent_takeResponse (h : s.inputs = .takeResponse :: rest) :
    s.nextEvent = some (.takeResponse, rest) := by
  unfold State.nextEvent; rw [h]

theorem nextEvent_command (h : s.inputs = .command c :: rest) (hr : s.resp = none) :
    s.nextEvent = some (.command c, rest) := by
  unfold State.nextEvent; rw [h]; simp [State.cmdReady, hr]

/-- While a command is held, the response can be taken (R292). -/
theorem nextEvent_held_takeResponse (h : s.inputs = .command c :: .takeResponse :: rest) (hr : s.resp ≠ none) :
    s.nextEvent = some (.takeResponse, .command c :: rest) := by
  unfold State.nextEvent; rw [h]; simp [State.cmdReady, hr]

/-- While a command is held, the block can be reset (R270). -/
theorem nextEvent_held_rst (h : s.inputs = .command c :: .rst :: rest) (hr : s.resp ≠ none) :
    s.nextEvent = some (.rst, .command c :: rest) := by
  unfold State.nextEvent; rw [h]; simp [State.cmdReady, hr]

/-- With a response pending and nothing but commands to come, nothing happens any more (R292). -/
theorem nextEvent_stalled (h : ∀ e ∈ s.inputs, ∃ c, e = .command c) (hr : s.resp ≠ none) :
    s.nextEvent = none := by
  unfold State.nextEvent
  split
  · rfl
  · next e => obtain ⟨c, hc⟩ := h .rst (by simp [e]); cases hc
  · next e => obtain ⟨c, hc⟩ := h .takeResponse (by simp [e]); cases hc
  · next c rest e =>
    rw [if_neg (by simpa [State.cmdReady] using hr)]
    match rest, e with
    | [], _ => rfl
    | .command _ :: _, _ => rfl
    | .takeResponse :: _, e => obtain ⟨c, hc⟩ := h .takeResponse (by simp [e]); cases hc
    | .rst :: _, e => obtain ⟨c, hc⟩ := h .rst (by simp [e]); cases hc

/-- A command that happens next is the first of the list and finds the port idle. -/
theorem of_nextEvent_command (h : s.nextEvent = some (.command c, rest)) :
    s.inputs = .command c :: rest ∧ s.resp = none := by
  unfold State.nextEvent at h
  split at h
  · cases h
  · cases h
  · cases h
  · next c' rest' e =>
    split at h
    · next hr =>
      cases h
      exact ⟨e, by simpa [State.cmdReady] using hr⟩
    · split at h <;> cases h

/-! Steps. -/

/-- With nothing to happen the block waits, idle or stalled. -/
theorem step_waits (h : s.nextEvent = none) : step s = .next s := by
  unfold step; rw [h]

theorem step_rst (h : s.nextEvent = some (.rst, rest)) : step s = .next (s.setInputs rest).applyReset := by
  unfold step; rw [h]

theorem step_takeResponse (h : s.nextEvent = some (.takeResponse, rest)) :
    step s = .next (s.setInputs rest).handOver := by
  unfold step; rw [h]

/-- A command presented on an idle port is accepted and run (R70, R80). -/
theorem step_command (h : s.inputs = .command c :: rest) (hr : s.resp = none) :
    step s = runCommand { s with inputs := rest, cmd := c } := by
  unfold step
  rw [nextEvent_command h hr]
  rfl

/-- Everything a step can do. -/
theorem step_cases (h : step s = .next t) :
    (s.nextEvent = none ∧ t = s) ∨
      (∃ rest, s.nextEvent = some (.rst, rest) ∧ t = (s.setInputs rest).applyReset) ∨
      (∃ rest, s.nextEvent = some (.takeResponse, rest) ∧ t = (s.setInputs rest).handOver) ∨
      ∃ c rest, s.nextEvent = some (.command c, rest) ∧ runCommand ((s.setInputs rest).accept c) = .next t := by
  unfold step at h
  split at h
  · next he => cases h; exact .inl ⟨he, rfl⟩
  · next rest he => cases h; exact .inr (.inl ⟨rest, he, rfl⟩)
  · next rest he => cases h; exact .inr (.inr (.inl ⟨rest, he, rfl⟩))
  · next c rest he => exact .inr (.inr (.inr ⟨c, rest, he, h⟩))

/-- A command that decodes is run; one that does not raises `IllegalCommand` (R75, R77, R80). -/
theorem runCommand_cases (s : State) :
    (∃ i, decodeWord s.inst = .ok i ∧ runCommand s = exec i s) ∨
      ∃ e, decodeWord s.inst = .error e ∧ runCommand s = s.perform (.error .illegalCommand) := by
  unfold runCommand
  cases h : decodeWord s.inst with
  | ok i => exact .inl ⟨i, rfl, rfl⟩
  | error e => exact .inr ⟨e, rfl, rfl⟩

theorem runCommand_next (s : State) : ∃ t, runCommand s = .next t := by
  rcases runCommand_cases s with ⟨i, _, h⟩ | ⟨e, _, h⟩ <;> rw [h]
  · exact exec_next _ _
  · exact perform_next _ _

/-! The invariant under the shared operations. -/

/-- A response carries the fault field, so presenting one asks nothing of what was presented before. -/
theorem State.respond_inv (h1 : s.matsOk) (h2 : s.tableOk) (h3 : s.builtOk) (h4 : s.err = none → s.ecmd = 0)
    (x : Word) : (s.respond x).Inv := by
  refine ⟨h1, h2, h3, h4, ?_⟩
  simp [State.respond]
  rfl

theorem State.setMat_matsOk (h : s.matsOk) (j : MReg) {m : BitMatrix} (hm : m.wf) : (s.setMat j m).matsOk := by
  intro k
  rw [State.mat_setMat]
  split
  · exact hm
  · exact h k

theorem State.raise_inv (h : s.Inv) (k : ErrKind) : (s.raise k).Inv :=
  State.respond_inv (s := { s with err := some k, ecmd := s.inst }) h.1 h.2.1 h.2.2.1 (fun e => nomatch e) 0

theorem State.handOver_inv (h : s.Inv) : s.handOver.Inv := by
  unfold State.handOver
  split
  · exact h
  · exact ⟨h.1, h.2.1, h.2.2.1, h.2.2.2.1, rfl⟩

end Sys2Proof.Machine
end

