-- ==== Sys2Proof/Laws/Table.lean ====
section
/-!
SUPPORT. The syndrome table: lookup after insertion, that every table operation keeps the canonical form (reset's
table, the empty list, has it), what `patterns` holds, and the build as one lookup law.
-/

namespace Sys2Proof.Machine

open Sys2Proof

namespace Tab

variable {t : Table} {y z : Word} {n w : Nat}

/-! Lookup and insertion. -/

theorem find_nil (y : Word) : tableFind [] y = none := rfl

theorem mem_of_find (h : tableFind t y = some n) : (y, n) ∈ t := by
  induction t with
  | nil => cases h
  | cons p t ih =>
    rw [tableFind] at h
    split at h
    · next e => cases h; subst e; exact List.mem_cons_self
    · exact List.mem_cons_of_mem _ (ih h)

theorem find_none_iff : tableFind t y = none ↔ ∀ p ∈ t, p.1 ≠ y := by
  induction t with
  | nil => simp [find_nil]
  | cons p t ih =>
    rw [tableFind]
    split
    · next e => subst e; simp
    · next e => rw [ih]; simp [e]

theorem find_of_mem (hs : tableSorted t) (h : (y, n) ∈ t) : tableFind t y = some n := by
  induction t with
  | nil => cases h
  | cons p t ih =>
    obtain ⟨hp, ht⟩ := List.pairwise_cons.mp hs
    rw [tableFind]
    rcases List.mem_cons.mp h with rfl | h
    · simp
    · have := hp _ h
      rw [if_neg (by rintro rfl; simp at this), ih ht h]

/-- In a table in canonical form the lookup says exactly what the table lists. -/
theorem mem_iff_find (hs : tableSorted t) : (y, n) ∈ t ↔ tableFind t y = some n :=
  ⟨find_of_mem hs, mem_of_find⟩

theorem has_iff : tableHas t y = true ↔ ∃ n, tableFind t y = some n := Option.isSome_iff_exists

theorem weight_of_find (h : tableFind t y = some n) : tableWeight t y = n := by simp [tableWeight, h]

theorem mem_insert {p : Word × Nat} (h : p ∈ tableInsert t y n) : p = (y, n) ∨ p ∈ t := by
  induction t with
  | nil => simpa [tableInsert] using h
  | cons q t ih =>
    rw [tableInsert] at h
    split at h
    · simpa using h
    · split at h
      · rcases List.mem_cons.mp h with h | h
        · exact .inl h
        · exact .inr (List.mem_cons_of_mem _ h)
      · rcases List.mem_cons.mp h with h | h
        · exact .inr (h ▸ List.mem_cons_self)
        · exact (ih h).imp id (List.mem_cons_of_mem _)

/-- Insertion keeps the canonical form. -/
theorem insert_sorted (hs : tableSorted t) (y : Word) (n : Nat) : tableSorted (tableInsert t y n) := by
  induction t with
  | nil => simp [tableInsert]
  | cons q t ih =>
    obtain ⟨hq, ht⟩ := List.pairwise_cons.mp hs
    rw [tableInsert]
    split
    · next hlt =>
      refine List.pairwise_cons.mpr ⟨fun p hp => ?_, hs⟩
      rcases List.mem_cons.mp hp with rfl | hp
      · exact hlt
      · exact Nat.lt_trans hlt (hq p hp)
    · next hlt =>
      split
      · next e => subst e; exact List.pairwise_cons.mpr ⟨hq, ht⟩
      · next e =>
        refine List.pairwise_cons.mpr ⟨fun p hp => ?_, ih ht⟩
        rcases mem_insert hp with rfl | hp
        · have : q.1.toNat ≠ y.toNat := fun h => e (BitVec.eq_of_toNat_eq h)
          show q.1.toNat < y.toNat
          omega
        · exact hq p hp

/-- A lookup after an insertion (R9). -/
theorem find_insert (hs : tableSorted t) (y z : Word) (n : Nat) :
    tableFind (tableInsert t y n) z = if z = y then some n else tableFind t z := by
  induction t with
  | nil =>
    by_cases h : z = y
    · simp [tableInsert, tableFind, h]
    · simp [tableInsert, tableFind, h, Ne.symm h]
  | cons q t ih =>
    obtain ⟨hq, ht⟩ := List.pairwise_cons.mp hs
    rw [tableInsert]
    split
    · by_cases h : z = y
      · simp [tableFind, h]
      · simp [tableFind, h, Ne.symm h]
    · split
      · next e =>
        subst e
        by_cases h : z = q.1
        · simp [tableFind, h]
        · simp [tableFind, h, Ne.symm h]
      · next e =>
        rw [tableFind, ih ht]
        by_cases h : z = y
        · subst h; simp [e]
        · simp [tableFind, h]

/-! Recording (R150): the first weight recorded for a syndrome stays. -/

theorem record_sorted (hs : tableSorted t) (y : Word) (n : Nat) : tableSorted (tableRecord t y n) := by
  unfold tableRecord
  split
  · exact hs
  · exact insert_sorted hs y n

theorem find_record (hs : tableSorted t) (y z : Word) (n : Nat) :
    tableFind (tableRecord t y n) z = (tableFind t z).or (if y = z then some n else none) := by
  unfold tableRecord
  split
  · next h =>
    obtain ⟨k, hk⟩ := has_iff.mp h
    by_cases e : y = z
    · subst e; simp [hk]
    · simp [e]
  · next h =>
    have hn : tableFind t y = none := by simpa [tableHas] using h
    rw [find_insert hs]
    by_cases e : y = z
    · subst e; simp [hn]
    · simp [e, Ne.symm e]

/-- Every candidate recorded in turn, with no early stop. -/
def recordAll (h : BitMatrix) : List (Word × Nat) → Table → Table
  | [], t => t
  | p :: ps, t => recordAll h ps (tableRecord t (h.mulr p.1) p.2)

theorem recordAll_append (h : BitMatrix) (ps qs : List (Word × Nat)) (t : Table) :
    recordAll h (ps ++ qs) t = recordAll h qs (recordAll h ps t) := by
  induction ps generalizing t with
  | nil => rfl
  | cons p ps ih => exact ih _

theorem recordAll_sorted (h : BitMatrix) (ps : List (Word × Nat)) (hs : tableSorted t) :
    tableSorted (recordAll h ps t) := by
  induction ps generalizing t with
  | nil => exact hs
  | cons p ps ih => exact ih (record_sorted hs _ _)

/-- After recording, a syndrome's weight is the earlier one, else that of the first candidate producing it. -/
theorem find_recordAll (h : BitMatrix) (ps : List (Word × Nat)) (hs : tableSorted t) (y : Word) :
    tableFind (recordAll h ps t) y =
      (tableFind t y).or ((ps.find? fun p => h.mulr p.1 == y).map Prod.snd) := by
  induction ps generalizing t with
  | nil => simp [recordAll]
  | cons p ps ih =>
    rw [recordAll, ih (record_sorted hs _ _), find_record hs, List.find?_cons]
    by_cases e : h.mulr p.1 = y
    · cases tableFind t y <;> simp [e]
    · have : (h.mulr p.1 == y) = false := by simpa using e
      simp [e, this]

/-! A full table. -/

theorem keys_nodup (hs : tableSorted t) : (t.map fun p => p.1.toNat).Nodup := by
  rw [List.Nodup, List.pairwise_map]
  exact hs.imp fun h => Nat.ne_of_lt h

/-- A table with keys below `2^b` has at most `2^b` entries. -/
theorem count_le (hs : tableSorted t) {b : Nat} (hk : ∀ p ∈ t, p.1.toNat < 2 ^ b) : tableCount t ≤ 2 ^ b := by
  have hsub : (t.map fun p => p.1.toNat) ⊆ List.range (2 ^ b) := by
    intro k hk'
    obtain ⟨p, hp, rfl⟩ := List.mem_map.mp hk'
    exact List.mem_range.mpr (hk p hp)
  have := ((keys_nodup hs).subperm hsub).length_le
  simpa [tableCount] using this

/-- A table with `2^b` keys below `2^b` has every one of them. -/
theorem has_of_full (hs : tableSorted t) {b : Nat} (hk : ∀ p ∈ t, p.1.toNat < 2 ^ b)
    (hc : tableCount t = 2 ^ b) {y : Word} (hy : y.toNat < 2 ^ b) : tableHas t y = true := by
  have hsub : (t.map fun p => p.1.toNat) ⊆ List.range (2 ^ b) := by
    intro k hk'
    obtain ⟨p, hp, rfl⟩ := List.mem_map.mp hk'
    exact List.mem_range.mpr (hk p hp)
  have hperm := ((keys_nodup hs).subperm hsub).perm_of_length_le (by simpa [tableCount] using hc.ge)
  have hmem : y.toNat ∈ t.map fun p => p.1.toNat := hperm.mem_iff.mpr (List.mem_range.mpr hy)
  obtain ⟨p, hp, he⟩ := List.mem_map.mp hmem
  have : p.1 = y := BitVec.eq_of_toNat_eq he
  subst this
  exact has_iff.mpr ⟨p.2, find_of_mem hs hp⟩

theorem mulr_toNat_lt {h : BitMatrix} (hr : h.rows ≤ 64) (v : Word) : (h.mulr v).toNat < 2 ^ h.rows :=
  (ushiftRight_eq_zero_iff_toNat _ _).mp (Mat.mulr_shift hr v)

/-- What recording keeps: the canonical form and the bound on the keys. -/
def KeysOk (h : BitMatrix) (t : Table) : Prop := tableSorted t ∧ ∀ p ∈ t, p.1.toNat < 2 ^ h.rows

theorem KeysOk.record {h : BitMatrix} (hr : h.rows ≤ 64) (ht : KeysOk h t) (v : Word) (n : Nat) :
    KeysOk h (tableRecord t (h.mulr v) n) := by
  refine ⟨record_sorted ht.1 _ _, fun p hp => ?_⟩
  unfold tableRecord at hp
  split at hp
  · exact ht.2 p hp
  · rcases mem_insert hp with rfl | hp
    · exact mulr_toNat_lt hr v
    · exact ht.2 p hp

theorem KeysOk.recordAll {h : BitMatrix} (hr : h.rows ≤ 64) (ps : List (Word × Nat)) (ht : KeysOk h t) :
    KeysOk h (recordAll h ps t) := by
  induction ps generalizing t with
  | nil => exact ht
  | cons p ps ih => exact ih (ht.record hr _ _)

theorem recordAll_full {h : BitMatrix} (hr : h.rows ≤ 64) (ht : KeysOk h t) (hc : tableCount t = 2 ^ h.rows)
    (ps : List (Word × Nat)) : Tab.recordAll h ps t = t := by
  induction ps with
  | nil => rfl
  | cons p ps ih =>
    rw [Tab.recordAll, tableRecord, if_pos (has_of_full ht.1 ht.2 hc (mulr_toNat_lt hr _)), ih]

/-- Stopping once the table is full leaves nothing out. -/
theorem scanPatterns_eq {h : BitMatrix} (hr : h.rows ≤ 64) (w : Nat) (es : List Word) (ht : KeysOk h t) :
    scanPatterns h (2 ^ h.rows) w es t = Tab.recordAll h (es.map fun e => (e, w)) t := by
  induction es generalizing t with
  | nil => rfl
  | cons e es ih =>
    rw [scanPatterns]
    split
    · next hc => exact (recordAll_full hr ht hc _).symm
    · exact ih (ht.record hr _ _)

/-- The candidates of R150 with their weights, in the order they are tried. -/
def candidates (n : Nat) (ws : List Nat) : List (Word × Nat) :=
  ws.flatMap fun w => (patterns n w).map fun e => (e, w)

theorem scanWeights_eq {h : BitMatrix} (hr : h.rows ≤ 64) (ws : List Nat) (ht : KeysOk h t) :
    scanWeights h (2 ^ h.rows) ws t = Tab.recordAll h (candidates h.cols ws) t := by
  induction ws generalizing t with
  | nil => rfl
  | cons w ws ih =>
    rw [scanWeights, candidates, List.flatMap_cons, recordAll_append]
    split
    · next hc => rw [recordAll_full hr ht hc, recordAll_full hr ht hc]
    · rw [scanPatterns_eq hr w _ ht]
      exact ih (ht.recordAll hr _)

/-! The build. -/

theorem patterns_zero (n : Nat) : patterns n 0 = [0] := by cases n <;> rfl

theorem mulr_no_rows {h : BitMatrix} (hr : h.rows = 0) (v : Word) : h.mulr v = 0 := by
  rw [Mat.mulr_eq, List.eq_nil_of_length_eq_zero hr]; rfl

theorem candidates_range (n k : Nat) : ∃ ps, candidates n (List.range (k + 1)) = (0, 0) :: ps := by
  rw [candidates, List.range_succ_eq_map, List.flatMap_cons, patterns_zero]
  exact ⟨_, rfl⟩

theorem buildTable_keysOk {h : BitMatrix} (hr : h.rows ≤ 64) : KeysOk h (buildTable h) := by
  unfold buildTable
  split
  · next h0 => exact ⟨by simp, by simp [h0]⟩
  · have h0 : KeysOk h [] := ⟨List.Pairwise.nil, by simp⟩
    rw [scanWeights_eq hr _ h0]; exact h0.recordAll hr _

/-- The build leaves a table in canonical form. -/
theorem buildTable_sorted {h : BitMatrix} (hr : h.rows ≤ 64) : tableSorted (buildTable h) :=
  (buildTable_keysOk hr).1

/-- The weight of a syndrome in the built table is that of the first candidate that produces it. -/
theorem find_buildTable {h : BitMatrix} (hr : h.rows ≤ 64) (y : Word) :
    tableFind (buildTable h) y =
      ((candidates h.cols (List.range (h.cols + 1))).find? fun p => h.mulr p.1 == y).map Prod.snd := by
  unfold buildTable
  split
  · next h0 =>
    obtain ⟨ps, hps⟩ := candidates_range h.cols h.cols
    rw [hps, List.find?_cons]
    by_cases e : (0 : Word) = y
    · subst e; simp [mulr_no_rows h0, tableFind]
    · have : (h.mulr 0 == y) = false := by rw [mulr_no_rows h0]; simpa using e
      rw [this]
      have hn : (ps.find? fun p => h.mulr p.1 == y) = none := by
        rw [List.find?_eq_none]; intro p _; rw [mulr_no_rows h0]; simpa using e
      rw [hn]; simpa [tableFind] using e
  · rw [scanWeights_eq hr _ ⟨List.Pairwise.nil, by simp⟩, find_recordAll h _ List.Pairwise.nil, find_nil,
      Option.none_or]

/-- Syndrome 0 has weight 0 after every build (R153). -/
theorem find_buildTable_zero {h : BitMatrix} (hr : h.rows ≤ 64) : tableFind (buildTable h) 0 = some 0 := by
  obtain ⟨ps, hps⟩ := candidates_range h.cols h.cols
  rw [find_buildTable hr, hps, List.find?_cons, Mat.mulr_zero hr]
  rfl

theorem buildTable_weight_le {h : BitMatrix} (hr : h.rows ≤ 64) {p : Word × Nat} (hp : p ∈ buildTable h) :
    p.2 ≤ h.cols := by
  have := find_of_mem (buildTable_sorted hr) (y := p.1) (n := p.2) hp
  rw [find_buildTable hr] at this
  obtain ⟨q, hq, he⟩ := Option.map_eq_some_iff.mp this
  have hm := List.mem_of_find?_eq_some hq
  simp only [candidates, List.mem_flatMap, List.mem_range, List.mem_map] at hm
  obtain ⟨w, hw, e, _, rfl⟩ := hm
  rw [← he]; exact Nat.le_of_lt_succ hw

end Tab

end Sys2Proof.Machine
end

