-- ==== Sys2Proof/Tests/Slice0.lean ====
section
/-!
SUPPORT. Tests: words of spec/30_encoding.md and 95_test_vectors.md written out, ill-formed terms for each check of
WellFormed, one-step tests with the outcomes of 95_test_vectors.md (the vector is named in each docstring), and a
named witness for the hypotheses of every statement.
-/

namespace Sys2Proof.Tests

open Sys2Proof Sys2Proof.Machine

/-! ## WellFormed: an ill-formed term for each check -/

theorem test_wf_rdcsr : (Instr.rdcsr 4).wellFormed = true ∧ (Instr.rdcsr 5).wellFormed = false := by decide

theorem test_wf_chsend : (Instr.chsend 64).wellFormed = true ∧ (Instr.chsend 65).wellFormed = false := by decide

/-! ## Decoding: one written-out word per command (R73, V30, V40 to V46, P1 to P4) -/

theorem test_decode_system :
    decodeWord 0x00000000#32 = .ok .nop ∧ decodeWord 0x04000002#32 = .ok (.rdcsr 2) := by decide

theorem test_decode_construct :
    decodeWord 0x20000207#32 = .ok (.mzero 0 4 7) ∧ decodeWord 0x24800183#32 = .ok (.mident 1 3 3) ∧
      decodeWord 0x28400000#32 = .ok (.mdim 4) := by decide

theorem test_decode_entries :
    decodeWord 0x2C300085#32 = .ok (.get 3 1 5) ∧ decodeWord 0x30004105#32 = .ok (.set 0 2 5 true) ∧
      decodeWord 0x30000082#32 = .ok (.set 0 1 2 false) := by decide

theorem test_decode_rows :
    decodeWord 0x34101F80#32 = .ok (.rowrd 1 63) ∧ decodeWord 0x39000080#32 = .ok (.rowwr 2 1) := by decide

theorem test_decode_matrix :
    decodeWord 0x3C500000#32 = .ok (.mulr 5) ∧ decodeWord 0x42300103#32 = .ok (.extract 4 3 2 3) ∧
      decodeWord 0x45940000#32 = .ok (.append 3 1 2) ∧ decodeWord 0x49100000#32 = .ok (.transp 2 1) := by decide

theorem test_decode_row_reduce :
    decodeWord 0x60000001#32 = .ok (.rowxor 0 0 1) ∧ decodeWord 0x64000003#32 = .ok (.rowswap 0 0 3) ∧
      decodeWord 0x68100000#32 = .ok (.rref 0 1) := by decide

theorem test_decode_code :
    decodeWord 0x81800000#32 = .ok (.deriveh 3 0) ∧ decodeWord 0xA0300000#32 = .ok (.tbuild 3) ∧
      decodeWord 0xA4000000#32 = .ok .tlookup ∧ decodeWord 0xC0300000#32 = .ok (.decode 3) := by decide

theorem test_decode_channel :
    decodeWord 0xE0000040#32 = .ok (.chsend 64) ∧ decodeWord 0xE4000000#32 = .ok .chseed := by decide

/-- V30-6, V30-7: reserved opcodes. -/
theorem test_decode_reserved :
    decodeWord 0x08000000#32 = .error .reservedOpcode ∧ decodeWord 0xFC000000#32 = .error .reservedOpcode ∧
      decodeWord 0x4C000000#32 = .error .reservedOpcode := by decide

/-- V30-8 to V30-11: bits of unused fields; an immediate out of range. -/
theorem test_decode_refused :
    decodeWord 0x00000001#32 = .error .unusedField ∧ decodeWord 0x28010000#32 = .error .unusedField ∧
      decodeWord 0x3C208000#32 = .error .unusedField ∧ decodeWord 0x04000005#32 = .error .immediateRange ∧
      decodeWord 0xE0000041#32 = .error .immediateRange := by decide

/-- V30-1, V30-3, R78: assembler text. -/
theorem test_assembler_text :
    asmFields (.mzero 0 4 7) = "MZERO M0, #4, #7" ∧
      asmCommand (.extract 1 0 4 3) ⟨0x40800203, 0, 4⟩ = "EXTRACT M1, M0, #4, #3 : 0, 4" := by decide

/-- R79: the words the pseudo-commands stand for. -/
theorem test_pseudo_commands :
    (Pseudo.encode 5).expand.map encode = [0x3C500000] ∧ (Pseudo.synd 3).expand.map encode = [0x3C300000] ∧
      (Pseudo.mempty 0).expand.map encode = [0x20000000] ∧
      (Pseudo.mcopy 2 1).expand.map encode = [0x49100000, 0x49200000] := by decide

/-! ## States -/

/-- The state after reset with the generator state 0. -/
def base : State := { State.reset with rng := 0 }

/-- A matrix from its columns and row words. -/
def mx (cols : Nat) (w : List Nat) : BitMatrix := { cols := cols, w := w.map (BitVec.ofNat 64) }

/-- A state with one matrix register set. -/
def at1 (j : MReg) (m : BitMatrix) : State := { base with mats := base.mats.set j m }

/-- A state with two matrix registers set. -/
def at2 (j : MReg) (m : BitMatrix) (k : MReg) (n : BitMatrix) : State :=
  { base with mats := (base.mats.set j m).set k n }

/-- The (7,4) generator of S6. -/
def ham : BitMatrix := mx 7 [0x46, 0x25, 0x13, 0x0F]

/-- The control matrix of S6. -/
def hamH : BitMatrix := mx 7 [0x6C, 0x5A, 0x39]

/-- The table of S6 (V42-1). -/
def hamT : Table := [(0, 0), (1, 1), (2, 1), (3, 1), (4, 1), (5, 1), (6, 1), (7, 1)]

/-- `M[3] = H` with its table built (V42-1). -/
def built : State := { at1 3 hamH with tab := hamT, tn := 7, tbits := 3, tbuilt := true }

/-- The machine after V40-2. -/
def faulted : State := { base with err := some .indexError, ecmd := 0x2C000000 }

/-- `s` with a command presented. -/
def pres (s : State) (inst : CommandWord) (op1 op2 : Word) : State :=
  { s with inputs := [.command ⟨inst, op1, op2⟩] }

/-- `s` with a command accepted. -/
def acc (s : State) (inst : CommandWord) (op1 op2 : Word) : State := { s with cmd := ⟨inst, op1, op2⟩ }

/-- The presented command runs, is answered `(err, rdata)`, and leaves a state with `p`. -/
def runs (s : State) (inst : CommandWord) (op1 op2 : Word) (err : BitVec 3) (rdata : Word) (p : State → Bool) : Bool :=
  match step (pres s inst op1 op2) with
  | .next t => t.resp == some { err := err, rdata := rdata } && p t
  | .fault _ => false
  | .refused _ => false

/-- Nothing more is asked of the state. -/
def any (_ : State) : Bool := true

/-- Register `j` holds `m`. -/
def holds (j : MReg) (m : BitMatrix) (s : State) : Bool := s.mat j == m

/-- The fault is recorded with this word. -/
def records (k : ErrKind) (w : CommandWord) (s : State) : Bool := s.err == some k && s.ecmd == w

/-- The response `(0, 7)` pending, and the host about to do `es`. -/
def answered (es : List PortEvent) : State := { base with inputs := es, resp := some ⟨0, 7⟩ }

/-! ## One step per test -/

/-- V46-1; and P2 line 21, in the fault state. -/
theorem test_nop : runs base 0x00000000 0 0 0 0 any = true ∧ runs faulted 0x00000000 0 0 1 0 any = true := by decide

/-- V46-2 (CONFIG), V42-1 (TSTAT). -/
theorem test_rdcsr :
    runs base 0x04000004 0 0 0 0x011008 any = true ∧ runs built 0x04000002 0 0 0 0x030307 any = true := by decide

/-- V60-2, V60-3: in the fault state. -/
theorem test_rdcsr_faulted :
    runs faulted 0x04000001 0 0 1 0x2C000000 any = true ∧
      runs faulted 0x04000005 0 0 1 0 (records .indexError 0x2C000000) = true := by decide

/-- V40-4, V40-3. -/
theorem test_mzero :
    runs base 0x20000005 0 0 0 0 (holds 0 (mx 5 [])) = true ∧
      runs base 0x20002081 0 0 2 0 (records .dimensionError 0x20002081) = true := by decide

/-- V40-5, V40-6. -/
theorem test_mident :
    runs base 0x24000185 0 0 0 0 (holds 0 (mx 5 [0x10, 0x08, 0x04])) = true ∧
      runs base 0x24800283 0 0 0 0 (holds 1 (mx 3 [4, 2, 1, 0, 0])) = true := by decide

/-- V40-1, P2 line 13. -/
theorem test_mdim :
    runs base 0x28500000 0 0 0 0 any = true ∧ runs (at1 4 (mx 2 [3, 3, 0])) 0x28400000 0 0 0 0x0302 any = true := by
  decide

/-- P2 lines 9, 10. -/
theorem test_get :
    runs (at1 3 hamH) 0x2C300085 0 0 0 1 any = true ∧ runs (at1 3 hamH) 0x2C300086 0 0 0 0 any = true := by decide

/-- V40-2. -/
theorem test_get_out_of_range : runs base 0x2C000000 0 0 1 0 (records .indexError 0x2C000000) = true := by decide

/-- V40-8. -/
theorem test_set :
    runs (at1 0 (mx 3 [0, 1])) 0x30004080 0 0 0 0 (holds 0 (mx 3 [0, 5])) = true ∧
      runs (at1 0 (mx 3 [0, 5])) 0x30000082 0 0 0 0 (holds 0 (mx 3 [0, 4])) = true := by decide

/-- V40-9. -/
theorem test_set_out_of_range :
    runs (at1 0 (mx 3 [0, 0])) 0x30004083 0 0 1 0 (holds 0 (mx 3 [0, 0])) = true := by decide

/-- P2 line 15. -/
theorem test_rowrd : runs (at1 4 (mx 2 [3, 3, 0])) 0x34400080 0 0 0 3 any = true := by decide

/-- P1 line 3; V40-10, V40-11. -/
theorem test_rowwr :
    runs (at1 0 (mx 7 [0x46, 0])) 0x38000080 0x25 0 0 0 (holds 0 (mx 7 [0x46, 0x25])) = true ∧
      runs (at1 0 (mx 3 [0, 0])) 0x38000000 0x8 0 1 0 (holds 0 (mx 3 [0, 0])) = true ∧
      runs (at1 0 (mx 3 [0, 0])) 0x38000100 0x1 0 1 0 any = true := by decide

/-- V40-15, V40-16. -/
theorem test_mulr :
    runs (at1 3 hamH) 0x3C300000 0x5B 0 0 1 any = true ∧
      runs (at1 0 (mx 5 [0x10, 8, 4])) 0x3C000000 0b10110 0 0 0b101 any = true := by decide

/-- V40-18, V40-21. -/
theorem test_extract :
    runs (at1 0 ham) 0x40800203 0 4 0 0 (holds 1 (mx 3 [6, 5, 3, 7])) = true ∧
      runs (at1 0 ham) 0x40800081 0xFFFFFFFFFFFFFFFF 0 2 0 (holds 1 (mx 0 [])) = true := by decide

/-- V40-22, V40-25. -/
theorem test_append :
    runs (at2 2 (mx 4 [0xD, 0xB, 7]) 4 (mx 3 [4, 2, 1])) 0x45A80000 0 0 0 0 (holds 3 hamH) = true ∧
      runs (at2 0 (mx 2 [2, 1]) 3 (mx 3 [4, 2, 1])) 0x45060000 0 0 2 0 any = true := by decide

/-- V40-27, V40-28. -/
theorem test_transp :
    runs (at1 4 (mx 3 [3, 3])) 0x4A400000 0 0 0 0 (holds 4 (mx 2 [0, 3, 3])) = true ∧
      runs (at1 0 (mx 5 [])) 0x48800000 0 0 0 0 (holds 1 (mx 0 [0, 0, 0, 0, 0])) = true := by decide

/-- V45-1, V45-4. -/
theorem test_rowxor :
    runs (at1 0 (mx 7 [0x46, 0x25, 0, 0])) 0x60000001 0 0 0 0 (holds 0 (mx 7 [0x63, 0x25, 0, 0])) = true ∧
      runs (at1 0 (mx 7 [0, 0, 0, 0x63])) 0x60000200 0 0 1 0 (records .indexError 0x60000200) = true := by decide

/-- V45-3. -/
theorem test_rowswap :
    runs (at1 0 (mx 7 [0x63, 0, 0, 0])) 0x64000003 0 0 0 0 (holds 0 (mx 7 [0, 0, 0, 0x63])) = true := by decide

/-- V45-6, V45-8. -/
theorem test_rref :
    runs (at1 1 (mx 6 [0x33, 0x1E, 0x0B])) 0x68100000 0 0 0 0x83 (holds 0 (mx 6 [0x26, 0x15, 0x0B])) = true ∧
      runs (at1 1 (mx 4 [6, 6, 3])) 0x68100000 0 0 0 2 (holds 0 (mx 4 [5, 3, 0])) = true := by decide

/-- V41-1, V41-4. -/
theorem test_deriveh :
    runs (at1 0 ham) 0x81800000 0 0 0 0 (holds 3 hamH) = true ∧
      runs (at1 0 (mx 5 [])) 0x80800000 0 0 3 0 (records .invalidGeneratorShape 0x80800000) = true := by decide

/-- V42-4, V42-6. -/
theorem test_tbuild :
    runs (at1 0 (mx 3 [6, 6])) 0xA0000000 0 0 0 2
        (fun t => t.tab == [(0, 0), (3, 1)] && t.csrTstat == 0x010203) = true ∧
      runs (at1 0 (mx 20 (List.replicate 17 0))) 0xA0000000 0 0 5 0 (records .capacityError 0xA0000000) = true := by
  decide

/-- V42-1. -/
theorem test_tbuild_hamming : buildTable hamH = hamT := by decide

/-- V42-8. -/
theorem test_patterns : patterns 4 2 = [0b0011, 0b0101, 0b0110, 0b1001, 0b1010, 0b1100] := by decide

/-- V42-3. -/
theorem test_tlookup : runs built 0xA4000000 5 0 0 0x81 any = true ∧ runs built 0xA4000000 8 0 0 0 any = true := by
  decide

/-- V43-4, V43-6. -/
theorem test_decode :
    runs built 0xC0300000 0x7A 0 0 0xB any = true ∧ runs built 0xC0300000 0x3A 0 0 5 any = true := by decide

/-- V43-14. -/
theorem test_decode_shape :
    runs (at1 1 (mx 3 [4, 2, 1, 0, 0])) 0xC0100000 0 0 6 0 (records .invalidControlShape 0xC0100000) = true := by
  decide

/-- V44-3; V44-8, V44-9. -/
theorem test_chsend :
    runs base 0xE0000000 0xFFFFFFFFFFFFFFFF 0x100000000 0 0xFFFFFFFFFFFFFFFF (fun t => t.rng == 0) = true ∧
      runs base 0xE0000041 0 0 4 0 (records .illegalCommand 0xE0000041) = true ∧
      runs base 0xE0000001 0 0x100000001 4 0 any = true := by decide

/-- V60-1. -/
theorem test_fault_state : runs faulted 0x20000207 0 0 1 0 (holds 0 (mx 0 [])) = true := by decide

/-- V60-4. -/
theorem test_reset_leaves_the_fault_state :
    (match step { faulted with inputs := [.rst] } with
      | .next t => t.err == none && t.ecmd == 0 && t.resp == none
      | .fault _ => false
      | .refused _ => false) = true := by decide

/-- R292: a held command is not accepted. The taking of the response behind it leaves it first in the list, and with
no taking to come nothing changes. -/
theorem test_held_command :
    (match step (answered [.command ⟨0xE4000000, 5, 0⟩, .takeResponse]) with
      | .next t => t.inputs == [.command ⟨0xE4000000, 5, 0⟩] && t.resp == none && t.taken == [⟨0, 7⟩]
      | .fault _ => false
      | .refused _ => false) = true ∧
      (match step (answered [.command ⟨0xE4000000, 5, 0⟩]) with
        | .next t => t == answered [.command ⟨0xE4000000, 5, 0⟩]
        | .fault _ => false
        | .refused _ => false) = true := by decide

/-- Every row of the opcode table, its fields 0: the decoder gives the row's instruction, and the first step after
reset answers a next state. -/
theorem test_first_step_of_every_row :
    (opcodeTable.all fun row =>
      (match decodeTableWord 32 row.matchWord.toNat with
        | some i => i.opcode == row
        | none => false) &&
      match step (State.reset.withFetchWord 32 row.matchWord.toNat) with
      | .next t => t.resp.isSome && t.inputs.isEmpty
      | .fault _ => false
      | .refused _ => false) = true := by decide

/-! ## Witnesses: for every statement with hypotheses, a state and operands that meet them together -/

/-- R21 as a check. -/
def wfCheck (m : BitMatrix) : Bool :=
  decide (m.rows ≤ 64) && decide (m.cols ≤ 64) && m.w.all fun x => x >>> m.cols == 0

theorem wf_of {m : BitMatrix} (h : wfCheck m = true) : m.wf := by
  simp only [wfCheck, Bool.and_eq_true, decide_eq_true_eq, List.all_eq_true, beq_iff_eq] at h
  exact ⟨h.1.1, h.1.2, h.2⟩

theorem mats_of {s : State} (h : (∀ j : Fin 8, wfCheck (s.mat j) = true)) : s.matsOk := fun j => wf_of (h j)

/-- The generator of S6 is in standard form. -/
theorem ham_standard : ham.wf ∧ ham.standardForm := by
  have h : ∀ r, r < 4 → ∀ c, c < 4 → ham.bit r c = decide (r = c) := by decide
  exact ⟨wf_of (by decide), by decide, by decide, fun r c hr hc => h r hr c hc⟩

/-- The state V42-1 leaves meets the invariant. -/
theorem built_inv : built.Inv := ⟨mats_of (by decide), by decide, by decide, by decide⟩

theorem faulted_inv : faulted.Inv := ⟨mats_of (by decide), by decide, by decide, by decide⟩

theorem witness_DecodeOfEncodeIsTheInstruction : (Instr.chsend 64).wellFormed = true := by decide

theorem witness_EncodeOfDecodeIsTheWord : decodeWord 0x04000004#32 = .ok (.rdcsr 4) := by decide

/-- `RDCSR #4` meets both sides, `RDCSR #5` neither. -/
theorem witness_WordIsTheCommandOfTheRowItMatches :
    0x04000004#32 &&& Opcode.rdcsr.maskWord = Opcode.rdcsr.matchWord ∧ (0x04000004#32 &&& 0x7F#32).toNat ≤ 4 ∧
      decodeWord 0x04000004#32 = .ok (.rdcsr 4) ∧ decodeWord 0x04000005#32 = .error .immediateRange := by decide

theorem witness_NoWordMatchesTwoRows :
    0x3C500000#32 &&& Opcode.mulr.maskWord = Opcode.mulr.matchWord := by decide

theorem witness_StepRunsTheDecodedCommand :
    (pres base 0x20000207 0 0).inputs = [.command ⟨0x20000207, 0, 0⟩] ∧ (pres base 0x20000207 0 0).resp = none ∧
      decodeWord 0x20000207#32 = .ok (.mzero 0 4 7) := by decide

/-- A threshold of `2^32 + 1` is malformed, one of `2^32` with width 64 is not. -/
theorem witness_MalformedCommandsRaiseIllegalCommand :
    (¬∃ row : Opcode, 0xE0000001#32 &&& row.maskWord = row.matchWord ∧
        (row = .rdcsr → (0xE0000001#32 &&& 0x7F#32).toNat ≤ 4) ∧
        (row = .chsend → (0xE0000001#32 &&& 0x7F#32).toNat ≤ 64 ∧ (0x100000001#64).toNat ≤ 2 ^ 32)) ∧
      (∃ row : Opcode, 0xE0000040#32 &&& row.maskWord = row.matchWord ∧
        (row = .rdcsr → (0xE0000040#32 &&& 0x7F#32).toNat ≤ 4) ∧
        (row = .chsend → (0xE0000040#32 &&& 0x7F#32).toNat ≤ 64 ∧ (0x100000000#64).toNat ≤ 2 ^ 32)) ∧
      (pres base 0xE0000001 0 0x100000001).resp = none ∧ (pres base 0xE0000001 0 0x100000001).err = none := by
  refine ⟨?_, ⟨.chsend, by decide, by decide, by decide⟩, by decide, by decide⟩
  rintro ⟨row, h1, _, h3⟩
  cases row <;> first | exact absurd h1 (by decide) | exact absurd (h3 rfl) (by decide)

/-- A held command with the taking behind it; alone, and before another command; a taking with and without a response
presented; nothing to happen. -/
theorem witness_ResponseIsHandedOverBeforeTheNextCommand :
    (answered [.command ⟨0, 0, 0⟩, .takeResponse]).inputs = .command ⟨0, 0, 0⟩ :: .takeResponse :: [] ∧
      (answered [.command ⟨0, 0, 0⟩]).inputs = [.command ⟨0, 0, 0⟩] ∧
      (answered [.command ⟨0, 0, 0⟩, .command ⟨0, 0, 0⟩]).inputs =
        .command ⟨0, 0, 0⟩ :: .command ⟨0, 0, 0⟩ :: [] ∧
      (answered [.takeResponse]).inputs = .takeResponse :: [] ∧ (answered [.takeResponse]).resp = some ⟨0, 7⟩ ∧
      ({ base with inputs := [.takeResponse] } : State).resp = none ∧ base.inputs = [] := by decide

/-- A reset first in the list, and one while a command is held. -/
theorem witness_ResetGivesEveryPieceOfStateItsResetValue :
    ({ built with inputs := [.rst] } : State).inputs = [.rst] ∧
      (answered [.command ⟨0, 0, 0⟩, .rst]).inputs = .command ⟨0, 0, 0⟩ :: .rst :: [] ∧
      (answered [.command ⟨0, 0, 0⟩, .rst]).resp ≠ none := by decide

theorem witness_EveryAcceptedCommandGetsItsResponse :
    (pres base 0 0 0).inputs = [.command ⟨0, 0, 0⟩] ∧ (pres base 0 0 0).resp = none ∧
      ∃ t, step (pres base 0 0 0) = .next t := ⟨by decide, by decide, _, rfl⟩

/-- A well-formed `RDCSR`, and an ill-formed one. -/
theorem witness_FaultStateAnswersWithoutExecuting :
    (pres faulted 0x04000004 0 0).err = some .indexError ∧ (pres faulted 0x04000004 0 0).resp = none ∧
      (pres faulted 0x04000005 0 0).err = some .indexError := by decide

theorem witness_FaultStateIsLeftOnlyByReset :
    ∃ t, step { faulted with inputs := [.rst] } = .next t ∧ faulted.err ≠ none ∧ t.err ≠ faulted.err :=
  ⟨_, rfl, by decide, by decide⟩

theorem witness_FaultOutputIsHighExactlyInTheFaultState : faulted.faultPin = true ∧ base.faultPin = false := by
  decide

theorem witness_RaiseAbortsTheCommand :
    ∃ t, base.err = none ∧ exec (.mzero 0 65 1) (acc base 0x20002081 0 0) = .next t ∧
      t.err = some .dimensionError := ⟨_, by decide, rfl, by decide⟩

theorem witness_EachCommandRaisesOnlyItsOwnKind :
    ∃ t, base.err = none ∧ exec (.get 0 0 0) (acc base 0x2C000000 0 0) = .next t ∧
      t.err = some .indexError := ⟨_, by decide, rfl, by decide⟩

theorem witness_CommandsWriteOnlyTheirDestinationRegister :
    ∃ t, exec (.mzero 0 4 7) base = .next t ∧ writesMat (.mzero 0 4 7) ≠ some 1 := ⟨_, rfl, by decide⟩

/-- `TBUILD`, and a reset. -/
theorem witness_TableIsWrittenOnlyByTbuildAndReset :
    (∃ t, step (pres base 0xA0000000 0 0) = .next t ∧ t.tbuilt ≠ base.tbuilt) ∧
      ∃ t, step { built with inputs := [.rst] } = .next t ∧ t.tab ≠ built.tab :=
  ⟨⟨_, rfl, by decide⟩, _, rfl, by decide⟩

theorem witness_GeneratorIsWrittenOnlyByTheChannelAndReset :
    ∃ t, step (pres { base with rng := Config.rngSeed 5 + 1 } 0xE4000000 5 0) = .next t ∧
      t.rng ≠ Config.rngSeed 5 + 1 :=
  ⟨_, rfl, fun h => Nat.succ_ne_self _ (Eq.symm (h : Config.rngSeed 5 = Config.rngSeed 5 + 1))⟩

theorem witness_FaultFieldsAreWrittenOnlyByARaise :
    ∃ t, step (pres base 0x08000000 0 0) = .next t ∧ (pres base 0x08000000 0 0).err = none ∧
      t.ecmd ≠ (pres base 0x08000000 0 0).ecmd := ⟨_, rfl, by decide, by decide⟩

theorem witness_UnreadOperandsHaveNoEffect :
    ∃ t, (readsOp1 (.mulr 3) = true → (0x5B : Word) = (acc built 0x3C300000 0x5B 0).cmd.op1) ∧
      (readsOp2 (.mulr 3) = true → (0xFF : Word) = (acc built 0x3C300000 0x5B 0).cmd.op2) ∧
      exec (.mulr 3) (acc built 0x3C300000 0x5B 0) = .next t := ⟨_, by decide, by decide, rfl⟩

/-- Numbers 4 and 5; number 5 in the fault state. -/
theorem witness_RdcsrReadsTheRegister :
    built.Inv ∧ (4 : Imm7).toNat ≤ 4 ∧ 4 < (5 : Imm7).toNat ∧ built.err = none ∧ faulted.Inv ∧
      faulted.err = some .indexError :=
  ⟨built_inv, by decide, by decide, by decide, faulted_inv, by decide⟩

/-- Dimensions 64 are legal, 65 is not. -/
theorem witness_MzeroBuildsTheZeroMatrix :
    base.err = none ∧ ((64 : Imm7).toNat ≤ 64 ∧ (0 : Imm7).toNat ≤ 64) ∧ 64 < (65 : Imm7).toNat := by decide

theorem witness_MidentBuildsTheIdentity :
    base.err = none ∧ ((3 : Imm7).toNat ≤ 64 ∧ (64 : Imm7).toNat ≤ 64) ∧ 64 < (65 : Imm7).toNat := by decide

theorem witness_MdimAnswersTheDimensions : built.err = none ∧ (built.mat 3).wf :=
  ⟨by decide, wf_of (by decide)⟩

/-- The last entry; the first row and the first column past the end. -/
theorem witness_GetReadsTheEntry :
    built.err = none ∧ (built.mat 3).w[(2 : Imm7).toNat]? = some 0x39 ∧ (6 : Imm7).toNat < (built.mat 3).cols ∧
      (built.mat 3).rows ≤ (3 : Imm7).toNat ∧ (built.mat 3).cols ≤ (7 : Imm7).toNat := by decide

theorem witness_SetWritesTheEntryAlone :
    built.err = none ∧ (built.mat 3).wf ∧ (2 : Imm7).toNat < (built.mat 3).rows ∧
      (6 : Imm7).toNat < (built.mat 3).cols ∧ (built.mat 3).rows ≤ (3 : Imm7).toNat ∧
      (built.mat 3).cols ≤ (7 : Imm7).toNat :=
  ⟨by decide, wf_of (by decide), by decide⟩

theorem witness_RowrdReadsTheRow :
    built.err = none ∧ (built.mat 3).w[(2 : Imm7).toNat]? = some 0x39 ∧ (built.mat 3).rows ≤ (3 : Imm7).toNat := by
  decide

/-- The widest legal operand, and one bit more. -/
theorem witness_RowwrWritesTheRow :
    built.err = none ∧ (2 : Imm7).toNat < (built.mat 3).rows ∧ (0x7F : Word) >>> (built.mat 3).cols = 0 ∧
      (built.mat 3).rows ≤ (3 : Imm7).toNat ∧ (0x80 : Word) >>> (built.mat 3).cols ≠ 0 := by decide

/-- The widest vector within the width, and one bit more. -/
theorem witness_MulrIsTheMatrixVectorProduct :
    built.err = none ∧ (built.mat 3).wf ∧ (acc built 0 0x7F 0).cmd.op1 >>> (built.mat 3).cols = 0 ∧
      (acc built 0 0x80 0).cmd.op1 >>> (built.mat 3).cols ≠ 0 :=
  ⟨by decide, wf_of (by decide), by decide⟩

/-- A region that ends at the last row and column; one a row too long; one a column too wide. -/
theorem witness_ExtractCopiesTheRegion :
    built.err = none ∧ (built.mat 3).wf ∧ (1 : Word).toNat + (2 : Imm7).toNat ≤ (built.mat 3).rows ∧
      (4 : Word).toNat + (3 : Imm7).toNat ≤ (built.mat 3).cols ∧
      (built.mat 3).rows < (2 : Word).toNat + (2 : Imm7).toNat ∧
      (built.mat 3).cols < (5 : Word).toNat + (3 : Imm7).toNat :=
  ⟨by decide, wf_of (by decide), by decide⟩

/-- 63 + 1 columns; 64 + 1 columns; 2 rows against 1. -/
theorem witness_AppendConcatenatesColumns :
    base.err = none ∧ ((at2 0 (mx 63 [1]) 1 (mx 1 [1])).mat 0).wf ∧ ((at2 0 (mx 63 [1]) 1 (mx 1 [1])).mat 1).wf ∧
      ((at2 0 (mx 63 [1]) 1 (mx 1 [1])).mat 0).rows = ((at2 0 (mx 63 [1]) 1 (mx 1 [1])).mat 1).rows ∧
      ((at2 0 (mx 63 [1]) 1 (mx 1 [1])).mat 0).cols + ((at2 0 (mx 63 [1]) 1 (mx 1 [1])).mat 1).cols ≤ 64 ∧
      64 < ((at2 0 (mx 64 [1]) 1 (mx 1 [1])).mat 0).cols + ((at2 0 (mx 64 [1]) 1 (mx 1 [1])).mat 1).cols ∧
      ((at2 0 (mx 1 [1, 0]) 1 (mx 1 [1])).mat 0).rows ≠ ((at2 0 (mx 1 [1, 0]) 1 (mx 1 [1])).mat 1).rows :=
  ⟨by decide, wf_of (by decide), wf_of (by decide), by decide⟩

theorem witness_TranspSwapsRowsAndColumns : built.err = none ∧ (built.mat 3).wf :=
  ⟨by decide, wf_of (by decide)⟩

theorem witness_TransposingTwiceCopies : built.err = none ∧ (built.mat 3).wf :=
  ⟨by decide, wf_of (by decide)⟩

theorem witness_MulrIsLinear :
    hamH.wf ∧ (0x7A : Word) >>> hamH.cols = 0 ∧ (0x22 : Word) >>> hamH.cols = 0 :=
  ⟨wf_of (by decide), by decide⟩

theorem witness_MulrOfTheTransposeIsTheVectorMatrixProduct :
    ham.wf ∧ (0xF : Word) >>> ham.rows = 0 ∧ 6 < ham.cols :=
  ⟨wf_of (by decide), by decide⟩

/-- The last row with itself; the first row past the end. -/
theorem witness_RowxorAddsARow :
    built.err = none ∧ (built.mat 3).w[(2 : Imm7).toNat]? = some 0x39 ∧ (built.mat 3).rows ≤ (3 : Imm7).toNat := by
  decide

theorem witness_RowswapExchangesRows :
    built.err = none ∧ (built.mat 3).w[(0 : Imm7).toNat]? = some 0x6C ∧
      (built.mat 3).w[(2 : Imm7).toNat]? = some 0x39 ∧ (built.mat 3).rows ≤ (3 : Imm7).toNat := by decide

theorem witness_RrefGivesTheReducedRowEchelonForm : built.err = none ∧ (built.mat 3).wf :=
  ⟨by decide, wf_of (by decide)⟩

/-- One row of one column; no rows; more rows than columns. -/
theorem witness_DerivehWritesTheControlMatrix :
    (at1 0 (mx 1 [1])).err = none ∧ ((at1 0 (mx 1 [1])).mat 0).wf ∧ 1 ≤ ((at1 0 (mx 1 [1])).mat 0).rows ∧
      ((at1 0 (mx 1 [1])).mat 0).rows ≤ ((at1 0 (mx 1 [1])).mat 0).cols ∧ ((at1 0 (mx 5 [])).mat 0).rows = 0 ∧
      ((at1 0 (mx 1 [1, 0])).mat 0).cols < ((at1 0 (mx 1 [1, 0])).mat 0).rows :=
  ⟨by decide, wf_of (by decide), by decide⟩

theorem witness_CodewordsHaveZeroSyndrome : ham.wf ∧ ham.standardForm ∧ (0xB : Word) >>> ham.rows = 0 :=
  ⟨ham_standard.1, ham_standard.2, by decide⟩

theorem witness_PatternsListTheVectorsOfOneWeight : 64 ≤ 64 := by decide

/-- A matrix with as many rows as SMAX; one more. -/
theorem witness_TbuildWritesTheCosetLeaderWeights :
    base.err = none ∧ ((at1 0 (mx 20 (List.replicate 16 0))).mat 0).wf ∧
      ((at1 0 (mx 20 (List.replicate 16 0))).mat 0).rows ≤ base.smax.val ∧
      base.smax.val < ((at1 0 (mx 20 (List.replicate 17 0))).mat 0).rows :=
  ⟨by decide, wf_of (by decide), by decide⟩

theorem witness_TheTableOfADerivedControlMatrixIsComplete :
    ham.wf ∧ 1 ≤ ham.rows ∧ ham.rows ≤ ham.cols :=
  ⟨wf_of (by decide), by decide⟩

/-- A syndrome that is present, and one that is not. -/
theorem witness_TlookupAnswersTheEntry :
    built.err = none ∧ built.Inv ∧ ((7 : Word), 1) ∈ built.tab ∧ ∀ p ∈ built.tab, p.1 ≠ 8 :=
  ⟨by decide, built_inv, by decide⟩

/-- As many rows as columns; a vector one bit too wide; one row more. -/
theorem witness_DecodeIsTheGreedyPass :
    (acc (at1 0 (mx 3 [4, 2, 1])) 0 7 0).err = none ∧ ((acc (at1 0 (mx 3 [4, 2, 1])) 0 7 0).mat 0).wf ∧
      ((acc (at1 0 (mx 3 [4, 2, 1])) 0 7 0).mat 0).rows ≤ ((acc (at1 0 (mx 3 [4, 2, 1])) 0 7 0).mat 0).cols ∧
      (acc (at1 0 (mx 3 [4, 2, 1])) 0 7 0).cmd.op1 >>> ((acc (at1 0 (mx 3 [4, 2, 1])) 0 7 0).mat 0).cols = 0 ∧
      (acc (at1 0 (mx 3 [4, 2, 1])) 0 8 0).cmd.op1 >>> ((acc (at1 0 (mx 3 [4, 2, 1])) 0 8 0).mat 0).cols ≠ 0 ∧
      ((at1 0 (mx 3 [4, 2, 1, 0])).mat 0).cols < ((at1 0 (mx 3 [4, 2, 1, 0])).mat 0).rows :=
  ⟨by decide, wf_of (by decide), by decide⟩

theorem witness_DecodeKeepsCodewords :
    built.Inv ∧ built.err = none ∧ (built.mat 3).rows ≤ (built.mat 3).cols ∧
      (acc built 0 0x5A 0).cmd.op1 >>> (built.mat 3).cols = 0 ∧
      (built.mat 3).mulr (acc built 0 0x5A 0).cmd.op1 = 0 :=
  ⟨built_inv, by decide⟩

theorem witness_EncodingIsSystematic : ham.wf ∧ ham.standardForm ∧ (0xF : Word) >>> ham.rows = 0 :=
  ⟨ham_standard.1, ham_standard.2, by decide⟩

theorem witness_NoiselessRoundTrip :
    ham.wf ∧ ham.standardForm ∧ (0xB : Word) >>> ham.rows = 0 ∧ (acc built 0 0x5A 0).err = none ∧
      (acc built 0 0x5A 0).mat 3 = ham.deriveControl ∧ (acc built 0 0x5A 0).tab = buildTable ham.deriveControl ∧
      (acc built 0 0x5A 0).cmd.op1 = ham.transpose.mulr 0xB :=
  ⟨ham_standard.1, ham_standard.2, by decide⟩

/-- Width 64 and threshold `2^32`; width 65; threshold `2^32 + 1`. -/
theorem witness_ChsendTogglesByTheDraws :
    base.err = none ∧ (64 : Imm7).toNat ≤ 64 ∧ (0x100000000 : Word).toNat ≤ 2 ^ 32 ∧ 64 < (65 : Imm7).toNat ∧
      2 ^ 32 < (0x100000001 : Word).toNat := by decide

theorem witness_ChsendAtTheBoundaries :
    base.err = none ∧ (64 : Imm7).toNat ≤ 64 ∧ (acc base 0 0 0).cmd.op2 = 0 ∧
      (acc base 0 0 0x100000000).cmd.op2.toNat = 2 ^ 32 := by decide

theorem witness_ChseedReseedsTheGenerator : base.err = none := by decide

theorem witness_EveryStepKeepsTheInvariant :
    built.Inv ∧ ∃ t, step (pres built 0xC0300000 0x7A 0) = .next t := ⟨built_inv, _, rfl⟩

/-- A held command and nothing behind it, and the sequence of steps from there. -/
theorem witness_AHostThatTakesNoResponseStallsTheBlock :
    (answered [.command ⟨0, 0, 0⟩]).resp ≠ none ∧
      (∀ e ∈ (answered [.command ⟨0, 0, 0⟩]).inputs, ∃ c, e = .command c) ∧
      ∃ run : Nat → State, run 0 = answered [.command ⟨0, 0, 0⟩] ∧ ∀ k, step (run k) = .next (run (k + 1)) :=
  ⟨by decide, fun _ he => ⟨⟨0, 0, 0⟩, List.mem_singleton.mp he⟩, fun _ => answered [.command ⟨0, 0, 0⟩], rfl,
    fun _ => rfl⟩

end Sys2Proof.Tests
end

section
/-!
The family of 10_state.md. First what each operation on a matrix and on the state does to the invariant, then what
a command and a step leave unchanged; the obligations are short uses of these.
-/

namespace Sys2Proof.Machine

open Sys2Proof

/-! ## The invariant under the operations -/

theorem putBit_shift {x : Word} {n p : Nat} (hx : x >>> n = 0) (hp : p < n) (b : Bool) :
    putBit x p b >>> n = 0 := by
  rw [ushiftRight_eq_zero_iff] at hx ⊢
  intro i hi
  by_cases h64 : i < 64
  · rw [getLsbD_putBit x p b h64, if_neg (by omega), hx i hi]
  · exact BitVec.getLsbD_of_ge _ _ (by omega)

theorem Mat.setBit_wf {m : BitMatrix} {r c : Nat} (hm : m.wf) (hc : c < m.cols) (b : Bool) :
    (m.setBit r c b).wf :=
  Mat.setRow_wf hm (putBit_shift (Mat.row_shift hm r) (by omega) b)

section

variable {s t u : State} {i : Instr} {c : Command} {a b : Answer} {k : ErrKind} {x : Word}

theorem State.reset_inv : State.reset.Inv := by
  have hempty : ∀ j, State.reset.mat j = BitMatrix.empty := by decide
  refine ⟨fun j => ?_, ⟨.nil, by simp [State.reset], by decide, by decide, Nat.zero_le _⟩,
    ⟨rfl, rfl, rfl⟩, fun _ => rfl, rfl⟩
  rw [hempty]
  exact Mat.zero_wf (Nat.zero_le _) (Nat.zero_le _)

/-- Reset keeps SMAX, which bounds nothing in a state with no table. -/
theorem State.applyReset_inv (s : State) : s.applyReset.Inv := by
  obtain ⟨hmats, ⟨hsorted, hkeys, hcount, htn, _⟩, hbuilt, hfault⟩ := State.reset_inv
  exact ⟨hmats, ⟨hsorted, hkeys, hcount, htn, Nat.zero_le _⟩, hbuilt, hfault⟩

theorem State.respond_inv_of_inv (h : s.Inv) (x : Word) : (s.respond x).Inv := by
  obtain ⟨hmats, htable, hbuilt, hecmd, _⟩ := h
  exact State.respond_inv hmats htable hbuilt hecmd x

theorem State.setMat_inv (h : s.Inv) (j : MReg) {m : BitMatrix} (hm : m.wf) : (s.setMat j m).Inv := by
  obtain ⟨hmats, htable, hbuilt, hfault⟩ := h
  exact ⟨State.setMat_matsOk hmats j hm, htable, hbuilt, hfault⟩

theorem State.setRng_inv (h : s.Inv) (g : Config.RngState) : (s.setRng g).Inv := h

theorem State.drew_inv (h : s.Inv) : s.drew.Inv := h

theorem State.setInputs_inv (h : s.Inv) (l : List PortEvent) : (s.setInputs l).Inv := h

theorem State.accept_inv (h : s.Inv) (c : Command) : (s.accept c).Inv := h

/-- A build of a matrix that fits the capacity (R150, R153, R155). -/
theorem State.setTable_buildTable_inv (h : s.Inv) {m : BitMatrix} (hm : m.wf) (hcap : m.rows ≤ s.smax.val) :
    (s.setTable (buildTable m) m.cols m.rows).Inv := by
  obtain ⟨hmats, _, _, hfault⟩ := h
  obtain ⟨hrows, hcols, _⟩ := hm
  obtain ⟨hsorted, hkeys⟩ := Tab.buildTable_keysOk hrows
  exact ⟨hmats,
    ⟨hsorted, fun p hp => ⟨hkeys p hp, Tab.buildTable_weight_le hrows hp⟩, Tab.count_le hsorted hkeys, hcols,
      hcap⟩,
    Tab.find_buildTable_zero hrows, hfault⟩

/-! ## The invariant under a command and a step -/

/-- The state that a command's rule writes, if it raises no error, meets the invariant. -/
def AnswerInv (a : Answer) : Prop := ∀ t x, a = .ok (t, x) → t.Inv

theorem AnswerInv.error : AnswerInv (.error k) := fun _ _ e => nomatch e

theorem AnswerInv.ok (h : t.Inv) : AnswerInv (.ok (t, x)) := fun _ _ e => by cases e; exact h

theorem AnswerInv.ite {p : Prop} [Decidable p] (ha : p → AnswerInv a) (hb : ¬p → AnswerInv b) :
    AnswerInv (if p then a else b) := by
  split
  · next h => exact ha h
  · next h => exact hb h

theorem perform_inv (h : s.Inv) (hu : s.perform a = .next u) (ha : AnswerInv a) : u.Inv := by
  rcases perform_cases hu with ⟨_, rfl⟩ | ⟨_, k, _, rfl⟩ | ⟨_, t, x, he, rfl⟩
  · exact State.respond_inv_of_inv h 0
  · exact State.raise_inv h k
  · exact State.respond_inv_of_inv (ha t x he) x

/-- Every command but a legal `RDCSR` ends in `perform`, and its rule writes only what keeps the invariant. -/
theorem exec_perform_inv (h : s.Inv) (i : Instr) (hi : ∀ n, i = .rdcsr n → csrLegal n = false) :
    ∃ a, exec i s = s.perform a ∧ AnswerInv a := by
  have hwf : s.matsOk := h.1
  cases i with
  | nop => exact ⟨_, rfl, .ok h⟩
  | rdcsr n => exact ⟨.error .illegalCommand, by simp [exec, execRdcsr, hi n rfl], .error⟩
  | mzero md rows cols =>
    refine ⟨_, rfl, .ite (fun hd => .ok ?_) fun _ => .error⟩
    obtain ⟨hr, hc⟩ := dimsLegal_iff.mp hd
    exact State.setMat_inv h md (Mat.zero_wf hr hc)
  | mident md rows cols =>
    refine ⟨_, rfl, .ite (fun hd => .ok ?_) fun _ => .error⟩
    obtain ⟨hr, hc⟩ := dimsLegal_iff.mp hd
    exact State.setMat_inv h md (Mat.ident_wf hr hc)
  | mdim ma => exact ⟨_, rfl, .ok h⟩
  | get ma row col => exact ⟨_, rfl, .ite (fun _ => .ok h) fun _ => .error⟩
  | set md row col b =>
    refine ⟨_, rfl, .ite (fun he => .ok ?_) fun _ => .error⟩
    exact State.setMat_inv h md (Mat.setBit_wf (hwf md) (hasEntry_iff.mp he).2 b)
  | rowrd ma row => exact ⟨_, rfl, .ite (fun _ => .ok h) fun _ => .error⟩
  | rowwr md row =>
    refine ⟨_, rfl, .ite (fun _ => .ite (fun _ => .error) fun hw => .ok ?_) fun _ => .error⟩
    exact State.setMat_inv h md (Mat.setRow_wf (hwf md) ((overWide_eq_false_iff _ _).mp (by simpa using hw)))
  | mulr ma => exact ⟨_, rfl, .ite (fun _ => .ok (State.drew_inv h)) fun _ => .ok h⟩
  | extract md ma rows cols =>
    refine ⟨_, rfl, .ite (fun hreg => .ok ?_) fun _ => .error⟩
    obtain ⟨hr, hc⟩ := hasRegion_iff.mp hreg
    obtain ⟨hrows, hcols, _⟩ := hwf ma
    exact State.setMat_inv h md (Mat.extract_wf (by omega) (by omega))
  | append md ma mb =>
    refine ⟨_, rfl, .ite (fun hd => .ok ?_) fun _ => .error⟩
    exact State.setMat_inv h md (Mat.append_wf (hwf ma) (hwf mb) hd.1 hd.2)
  | transp md ma => exact ⟨_, rfl, .ok (State.setMat_inv h md (Mat.transpose_wf (hwf ma)))⟩
  | rowxor md dst src =>
    exact ⟨_, rfl, .ite (fun _ => .ok (State.setMat_inv h md (Mat.rowXor_wf (hwf md) _ _))) fun _ => .error⟩
  | rowswap md r1 r2 =>
    exact ⟨_, rfl, .ite (fun _ => .ok (State.setMat_inv h md (Mat.rowSwap_wf (hwf md) _ _))) fun _ => .error⟩
  | rref md ma => exact ⟨_, rfl, .ok (State.setMat_inv h md (Mat.rref_wf (hwf ma)))⟩
  | deriveh md ma =>
    refine ⟨_, rfl, .ite (fun _ => .error) fun hshape => .ok ?_⟩
    exact State.setMat_inv h md (Mat.derive_wf (hwf ma) (by omega))
  | tbuild ma =>
    refine ⟨_, rfl, .ite (fun _ => .error) fun hcap => .ok ?_⟩
    exact State.setTable_buildTable_inv h (hwf ma) (by omega)
  | tlookup => exact ⟨_, rfl, .ok h⟩
  | decode ma =>
    exact ⟨_, rfl, .ite (fun _ => .error) fun _ => .ite (fun _ => .ok (State.drew_inv h)) fun _ => .ok h⟩
  | chsend width => exact ⟨_, rfl, .ite (fun _ => .ok (State.setRng_inv h _)) fun _ => .error⟩
  | chseed => exact ⟨_, rfl, .ok (State.setRng_inv h _)⟩

theorem exec_inv (h : s.Inv) (hu : exec i s = .next u) : u.Inv := by
  by_cases hi : ∀ n, i = .rdcsr n → csrLegal n = false
  · obtain ⟨a, he, ha⟩ := exec_perform_inv h i hi
    exact perform_inv h (he ▸ hu) ha
  · obtain ⟨n, rfl, hn⟩ : ∃ n, i = .rdcsr n ∧ csrLegal n = true := by simpa using hi
    rw [exec_rdcsr hn] at hu
    cases hu
    exact State.respond_inv_of_inv h _

theorem runCommand_inv (h : s.Inv) (hu : runCommand s = .next u) : u.Inv := by
  rcases runCommand_cases s with ⟨i, _, hrun⟩ | ⟨e, _, hrun⟩
  · exact exec_inv h (hrun ▸ hu)
  · exact perform_inv h (hrun ▸ hu) .error

/-! ## What a command leaves unchanged -/

/-- What no outcome of command `i` changes, whether it raises, completes or is answered in the fault state. -/
structure CommandFrame (i : Instr) (s u : State) : Prop where
  mats : ∀ j, writesMat i ≠ some j → u.mat j = s.mat j
  table : (∀ ma, i ≠ .tbuild ma) → u.tab = s.tab ∧ u.tn = s.tn ∧ u.tbits = s.tbits ∧ u.tbuilt = s.tbuilt
  rng : (∀ w, i ≠ .chsend w) → i ≠ .chseed → u.rng = s.rng
  smax : u.smax = s.smax
  cmd : u.cmd = s.cmd
  inputs : u.inputs = s.inputs
  taken : u.taken = s.taken

theorem OnlyWrites.respond_frame (h : OnlyWrites i s t) (x : Word) : CommandFrame i s (t.respond x) :=
  ⟨h.mats, h.table, h.rng, h.smax, h.cmd, h.inputs, h.taken⟩

theorem raise_frame (i : Instr) (s : State) (k : ErrKind) : CommandFrame i s (s.raise k) :=
  ⟨fun _ _ => rfl, fun _ => ⟨rfl, rfl, rfl, rfl⟩, fun _ _ => rfl, rfl, rfl, rfl, rfl⟩

theorem exec_frame (h : exec i s = .next u) : CommandFrame i s u := by
  rcases exec_cases h with ⟨x, _, rfl⟩ | ⟨k, _, _, rfl⟩ | ⟨t, x, _, hw, rfl⟩
  · exact (OnlyWrites.self i s).respond_frame x
  · exact raise_frame i s k
  · exact hw.respond_frame x

/-- A word that does not decode changes as little as `NOP` may. -/
theorem runCommand_frame (h : runCommand s = .next u) :
    (∃ i, decodeWord s.inst = .ok i ∧ CommandFrame i s u) ∨ CommandFrame .nop s u := by
  rcases runCommand_cases s with ⟨i, hi, hrun⟩ | ⟨e, _, hrun⟩
  · exact .inl ⟨i, hi, exec_frame (hrun ▸ h)⟩
  · rcases perform_cases (hrun ▸ h) with ⟨_, rfl⟩ | ⟨_, k, _, rfl⟩ | ⟨_, t, x, he, _⟩
    · exact .inr ((OnlyWrites.self .nop s).respond_frame 0)
    · exact .inr (raise_frame .nop s k)
    · cases he

theorem runCommand_smax (h : runCommand s = .next u) : u.smax = s.smax := by
  rcases runCommand_frame h with ⟨i, _, hf⟩ | hf <;> exact hf.smax

/-- Outside the fault state a command raises, or leaves the fault fields as they are (R28). -/
theorem runCommand_raises_or_keeps (he : s.err = none) (h : runCommand s = .next u) :
    (∃ k, u = s.raise k) ∨ (u.err = s.err ∧ u.ecmd = s.ecmd) := by
  rcases runCommand_cases s with ⟨i, _, hrun⟩ | ⟨e, _, hrun⟩
  · rcases exec_cases (hrun ▸ h) with ⟨x, hne, _⟩ | ⟨k, _, _, rfl⟩ | ⟨t, x, _, hw, rfl⟩
    · exact absurd he hne
    · exact .inl ⟨k, rfl⟩
    · exact .inr ⟨hw.err, hw.ecmd⟩
  · rw [hrun, perform_error he] at h
    cases h
    exact .inl ⟨_, rfl⟩

/-! ## What a step leaves unchanged -/

/-- Only a reset or a decoded command can reach the table and the generator, the command within its frame. -/
theorem step_table_rng_cases (h : step s = .next t) :
    (∃ rest, s.nextEvent = some (.rst, rest)) ∨
      (∃ c rest i, s.nextEvent = some (.command c, rest) ∧ decodeWord c.inst = .ok i ∧
        CommandFrame i ((s.setInputs rest).accept c) t) ∨
      (t.tab = s.tab ∧ t.tn = s.tn ∧ t.tbits = s.tbits ∧ t.tbuilt = s.tbuilt) ∧ t.rng = s.rng := by
  rcases step_cases h with ⟨_, rfl⟩ | ⟨rest, he, _⟩ | ⟨rest, _, rfl⟩ | ⟨c, rest, he, hrun⟩
  · exact .inr (.inr ⟨⟨rfl, rfl, rfl, rfl⟩, rfl⟩)
  · exact .inl ⟨rest, he⟩
  · exact .inr (.inr (by simp))
  · rcases runCommand_frame hrun with ⟨i, hi, hf⟩ | hf
    · exact .inr (.inl ⟨c, rest, i, he, hi, hf⟩)
    · exact .inr (.inr ⟨hf.table nofun, hf.rng nofun nofun⟩)

theorem step_smax (h : step s = .next t) : t.smax = s.smax := by
  rcases step_cases h with ⟨_, rfl⟩ | ⟨rest, _, rfl⟩ | ⟨rest, _, rfl⟩ | ⟨c, rest, _, hrun⟩
  · rfl
  · rfl
  · simp
  · exact runCommand_smax (s := (s.setInputs rest).accept c) hrun

theorem State.csrConfig_congr (h : t.smax = s.smax) : t.csrConfig = s.csrConfig := by
  rw [State.csrConfig, State.csrConfig, h]

end

/-! ## The obligations -/

/-- Settles O55: reset meets the invariant, and the other steps are built from operations that keep it. -/
theorem everyStepKeepsTheInvariant : Obligations.EveryStepKeepsTheInvariant := by
  intro s t h hstep
  rcases step_cases hstep with ⟨_, rfl⟩ | ⟨rest, _, rfl⟩ | ⟨rest, _, rfl⟩ | ⟨c, rest, _, hrun⟩
  · exact h
  · exact State.applyReset_inv _
  · exact State.handOver_inv (State.setInputs_inv h rest)
  · exact runCommand_inv (State.accept_inv (State.setInputs_inv h rest) c) hrun

/-- Settles O54: no matrix has a row, the table is empty, and no error is recorded. -/
theorem invHoldsAtReset : Obligations.InvHoldsAtReset := State.reset_inv

/-- Settles O17: the frame of a command. -/
theorem commandsWriteOnlyTheirDestinationRegister : Obligations.CommandsWriteOnlyTheirDestinationRegister := by
  intro i s t h
  have hf := exec_frame h
  exact ⟨hf.mats, hf.smax, hf.cmd, hf.inputs, hf.taken⟩

/-- Settles O18: a decoded command that is no `TBUILD` has the table in its frame. -/
theorem tableIsWrittenOnlyByTbuildAndReset : Obligations.TableIsWrittenOnlyByTbuildAndReset := by
  intro s t h hne
  rcases step_table_rng_cases h with ⟨rest, he⟩ | ⟨c, rest, i, he, hi, hf⟩ | ⟨hsame, _⟩
  · exact ⟨.rst, rest, he, .inl rfl⟩
  · by_cases hb : ∃ ma, i = .tbuild ma
    · obtain ⟨ma, rfl⟩ := hb
      exact ⟨.command c, rest, he, .inr ⟨c, ma, rfl, hi⟩⟩
    · have hsame := hf.table fun ma e => hb ⟨ma, e⟩
      simp [hsame] at hne
  · simp [hsame] at hne

/-- Settles O19: a decoded command that is neither `CHSEND` nor `CHSEED` has the generator in its frame. -/
theorem generatorIsWrittenOnlyByTheChannelAndReset : Obligations.GeneratorIsWrittenOnlyByTheChannelAndReset := by
  intro s t h hne
  rcases step_table_rng_cases h with ⟨rest, he⟩ | ⟨c, rest, i, he, hi, hf⟩ | ⟨_, hsame⟩
  · exact ⟨.rst, rest, he, .inl rfl⟩
  · refine ⟨.command c, rest, he, .inr ⟨c, rfl, ?_⟩⟩
    by_cases hsend : ∃ w, i = .chsend w
    · obtain ⟨w, rfl⟩ := hsend
      exact .inl ⟨w, hi⟩
    · by_cases hseed : i = .chseed
      · exact .inr (hseed ▸ hi)
      · exact absurd (hf.rng (fun w e => hsend ⟨w, e⟩) hseed) hne
  · exact absurd hsame hne

/-- Settles O20: CONFIG is a function of SMAX, and a command that changes a fault field has raised. -/
theorem faultFieldsAreWrittenOnlyByARaise : Obligations.FaultFieldsAreWrittenOnlyByARaise := by
  intro s t h
  refine ⟨State.csrConfig_congr (step_smax h), fun hnone hne => ?_⟩
  rcases step_cases h with ⟨_, rfl⟩ | ⟨rest, he, _⟩ | ⟨rest, _, rfl⟩ | ⟨c, rest, he, hrun⟩
  · simp at hne
  · exact .inl ⟨rest, he⟩
  · simp at hne
  · rcases runCommand_raises_or_keeps (s := (s.setInputs rest).accept c) hnone hrun with
      ⟨k, rfl⟩ | ⟨herr, hecmd⟩
    · exact .inr ⟨c, rest, k, he, rfl, rfl, rfl⟩
    · simp [herr, hecmd] at hne

end Sys2Proof.Machine
end

section
/-!
The family of 30_encoding.md. First the command word: encoding and decoding are inverse to each other because a word
is fixed by the row it matches and the command read from it. Then the ports: which commands are legal, the response
every command ends in, and the operand words a command does not read.
-/

namespace Sys2Proof.Machine

open Sys2Proof Sys2Proof.Laws Sys2Proof.Laws.Encoding

/-! ## The command word -/

section

variable {x y : CommandWord} {row : Opcode}

/-- The row of every encoding, command by command (R73). -/
theorem encode_matchesRow (i : Instr) : EncodingMatchesRow.Statement i :=
  match i with
  | .nop => EncodingMatchesRow.nop
  | .rdcsr n => EncodingMatchesRow.rdcsr n
  | .mzero md rows cols => EncodingMatchesRow.mzero md rows cols
  | .mident md rows cols => EncodingMatchesRow.mident md rows cols
  | .mdim ma => EncodingMatchesRow.mdim ma
  | .get ma row col => EncodingMatchesRow.get ma row col
  | .set md row col b => EncodingMatchesRow.set md row col b
  | .rowrd ma row => EncodingMatchesRow.rowrd ma row
  | .rowwr md row => EncodingMatchesRow.rowwr md row
  | .mulr ma => EncodingMatchesRow.mulr ma
  | .extract md ma rows cols => EncodingMatchesRow.extract md ma rows cols
  | .append md ma mb => EncodingMatchesRow.append md ma mb
  | .transp md ma => EncodingMatchesRow.transp md ma
  | .rowxor md dst src => EncodingMatchesRow.rowxor md dst src
  | .rowswap md r1 r2 => EncodingMatchesRow.rowswap md r1 r2
  | .rref md ma => EncodingMatchesRow.rref md ma
  | .deriveh md ma => EncodingMatchesRow.deriveh md ma
  | .tbuild ma => EncodingMatchesRow.tbuild ma
  | .tlookup => EncodingMatchesRow.tlookup
  | .decode ma => EncodingMatchesRow.decode ma
  | .chsend width => EncodingMatchesRow.chsend width
  | .chseed => EncodingMatchesRow.chseed

theorem encode_and_maskWord (i : Instr) : encode i &&& i.opcode.maskWord = i.opcode.matchWord :=
  (encode_matchesRow i).1

/-- The fields of an encoding are the operands it was made from. -/
@[simp] theorem instr_encode (i : Instr) : i.opcode.instr (encode i) = i := by
  cases i <;> simp [Instr.opcode, Opcode.instr, encode]

theorem matchWord_row_unique {a b : Opcode} (ha : x &&& a.maskWord = a.matchWord)
    (hb : x &&& b.maskWord = b.matchWord) : a = b := by
  have hbits : a.bits = b.bits := (fieldOpcode_of_match ha).symm.trans (fieldOpcode_of_match hb)
  have hrow : some a = some b := by rw [← ofBits_bits a, hbits, ofBits_bits b]
  exact Option.some.inj hrow

/-! A word is fixed by the row it matches and the command read from it. -/

theorem extractLsb'_eq_of_and_eq {m : CommandWord} (h : x &&& m = y &&& m) {start len : Nat}
    (hm : m.extractLsb' start len = BitVec.allOnes len) : x.extractLsb' start len = y.extractLsb' start len := by
  have := congrArg (BitVec.extractLsb' start len) h
  simpa [BitVec.extractLsb'_and, hm] using this

theorem getLsbD_eq_of_extractLsb'_eq {start len k : Nat} (h : x.extractLsb' start len = y.extractLsb' start len)
    (hk : start ≤ k ∧ k < start + len) : x.getLsbD k = y.getLsbD k := by
  have := congrArg (fun v => v.getLsbD (k - start)) h
  simpa [show k - start < len by omega, show start + (k - start) = k by omega] using this

/-- First bit and width of every field of R72, `i0` first, and of bits [16:15] that no field holds. -/
def wordFields : List (Nat × Nat) := [(0, 7), (7, 7), (14, 1), (15, 2), (17, 3), (20, 3), (23, 3), (26, 6)]

theorem exists_wordField : ∀ k, k < 32 → ∃ f ∈ wordFields, f.1 ≤ k ∧ k < f.1 + f.2 := by decide

/-- The fields make up the word. -/
theorem commandWord_ext (h : ∀ f ∈ wordFields, x.extractLsb' f.1 f.2 = y.extractLsb' f.1 f.2) : x = y := by
  apply BitVec.eq_of_getLsbD_eq
  intro k hk
  obtain ⟨f, hf, hkf⟩ := exists_wordField k hk
  exact getLsbD_eq_of_extractLsb'_eq (h f hf) hkf

theorem fieldMd_eq_iff : fieldMd x = fieldMd y ↔ x.extractLsb' 23 3 = y.extractLsb' 23 3 := BitVec.toFin_inj

theorem fieldMa_eq_iff : fieldMa x = fieldMa y ↔ x.extractLsb' 20 3 = y.extractLsb' 20 3 := BitVec.toFin_inj

theorem fieldMb_eq_iff : fieldMb x = fieldMb y ↔ x.extractLsb' 17 3 = y.extractLsb' 17 3 := BitVec.toFin_inj

theorem fieldB_eq_iff : fieldB x = fieldB y ↔ x.extractLsb' 14 1 = y.extractLsb' 14 1 := by
  refine ⟨fun h => BitVec.eq_of_getLsbD_eq fun k hk => ?_, fun h => ?_⟩
  · obtain rfl : k = 0 := by omega
    simpa [fieldB] using h
  · exact getLsbD_eq_of_extractLsb'_eq h (by decide)

/-- A field that the row's mask does not cover is an operand of the row's command (R73). -/
theorem operandField_eq (h : row.instr x = row.instr y) :
    ∀ f ∈ wordFields, row.maskWord.extractLsb' f.1 f.2 ≠ BitVec.allOnes f.2 →
      x.extractLsb' f.1 f.2 = y.extractLsb' f.1 f.2 := by
  cases row <;>
    simp_all [wordFields, Opcode.instr, Opcode.maskWord, fieldMd_eq_iff, fieldMa_eq_iff, fieldMb_eq_iff,
      fieldB_eq_iff, fieldI1, fieldI0]

/-- Each field is covered by the row's mask or is an operand. -/
theorem word_eq_of_instr_eq (hm : x &&& row.maskWord = y &&& row.maskWord) (hi : row.instr x = row.instr y) :
    x = y := by
  refine commandWord_ext fun f hf => ?_
  by_cases hcov : row.maskWord.extractLsb' f.1 f.2 = BitVec.allOnes f.2
  · exact extractLsb'_eq_of_and_eq hm hcov
  · exact operandField_eq hi f hf hcov

/-- Both words match the row, and the same command is read from both. -/
theorem encode_instr (h : x &&& row.maskWord = row.matchWord) : encode (row.instr x) = x := by
  have hm := encode_and_maskWord (row.instr x)
  have hi := instr_encode (row.instr x)
  rw [opcode_instr] at hm hi
  exact word_eq_of_instr_eq (hm.trans h.symm) hi

theorem fieldI0_toNat (x : CommandWord) : (fieldI0 x).toNat = (x &&& 0x7F#32).toNat := by
  rw [fieldI0, BitVec.extractLsb'_toNat, BitVec.toNat_and, Nat.shiftRight_zero]
  exact (Nat.and_two_pow_sub_one_eq_mod x.toNat 7).symm

/-- The ranges the decoder checks, on the bits of the word (R77 (b), (c)). -/
theorem wellFormed_instr_iff (row : Opcode) (x : CommandWord) :
    (row.instr x).wellFormed = true ↔
      (row = .rdcsr → (x &&& 0x7F#32).toNat ≤ 4) ∧ (row = .chsend → (x &&& 0x7F#32).toNat ≤ 64) := by
  rw [← fieldI0_toNat]
  cases row <;> simp [Opcode.instr, Instr.wellFormed]

end

/-! ## The response of a command -/

section

variable {s t u : State} {i : Instr} {c : Command} {rest : List PortEvent}

theorem runCommand_ok (h : decodeWord s.inst = .ok i) : runCommand s = exec i s := by
  rw [runCommand, h]

theorem runCommand_error {e : IllegalForm} (h : decodeWord s.inst = .error e) :
    runCommand s = s.perform (.error .illegalCommand) := by
  rw [runCommand, h]

theorem State.errCode_eq_zero_iff : s.errCode = 0 ↔ s.err = none := by
  cases h : s.err with
  | none => simp [State.errCode_none s h]
  | some k => simpa [State.errCode_some s h] using ErrKind.code_ne_zero k

/-- The response presented carries the fault field of the state it is presented in (R71). -/
def State.Answered (u : State) : Prop := ∃ x, u.resp = some { err := u.errCode, rdata := x }

theorem State.respond_answered (s : State) (x : Word) : (s.respond x).Answered := ⟨x, rfl⟩

theorem State.raise_answered (s : State) (k : ErrKind) : (s.raise k).Answered := ⟨0, rfl⟩

theorem exec_answered (h : exec i s = .next u) : u.Answered := by
  rcases exec_cases h with ⟨x, _, rfl⟩ | ⟨k, _, _, rfl⟩ | ⟨t, x, _, _, rfl⟩
  · exact s.respond_answered x
  · exact s.raise_answered k
  · exact t.respond_answered x

theorem runCommand_answered (h : runCommand s = .next u) : u.Answered := by
  rcases runCommand_cases s with ⟨i, _, hrun⟩ | ⟨e, _, hrun⟩
  · exact exec_answered (hrun ▸ h)
  · rcases perform_cases (hrun ▸ h) with ⟨_, rfl⟩ | ⟨_, k, _, rfl⟩ | ⟨_, t, x, _, rfl⟩
    · exact s.respond_answered 0
    · exact s.raise_answered k
    · exact t.respond_answered x

/-- A command keeps the port and the host's lists, whether its word decodes or not. -/
theorem runCommand_ports (h : runCommand s = .next u) :
    u.taken = s.taken ∧ u.inputs = s.inputs ∧ u.cmd = s.cmd := by
  rcases runCommand_frame h with ⟨i, _, hf⟩ | hf <;> exact ⟨hf.taken, hf.inputs, hf.cmd⟩

/-- A held command with no taking and no reset right behind it (R292). -/
theorem nextEvent_held_command {d : Command}
    (h : s.inputs = [.command c] ∨ s.inputs = .command c :: .command d :: rest)
    (hr : s.resp ≠ none) : s.nextEvent = none := by
  rcases h with h | h <;> simp [State.nextEvent, h, State.cmdReady, hr]

/-! ## Legal commands -/

/-- A command that is not malformed: its word matches a row, and its numbers are in the ranges of R77 (b), (c). -/
def LegalCommand (c : Command) : Prop :=
  ∃ row : Opcode, c.inst &&& row.maskWord = row.matchWord ∧
    (row = .rdcsr → (c.inst &&& 0x7F#32).toNat ≤ 4) ∧
    (row = .chsend → (c.inst &&& 0x7F#32).toNat ≤ 64 ∧ c.op2.toNat ≤ 2 ^ 32)

/-- Legal is: the word decodes, and a channel command's threshold, which is no part of the word, is in its range. -/
theorem legalCommand_iff :
    LegalCommand c ↔ ∃ i, decodeWord c.inst = .ok i ∧ (i.opcode = .chsend → c.op2.toNat ≤ 2 ^ 32) := by
  constructor
  · rintro ⟨row, hm, hcsr, hch⟩
    have hwf := (wellFormed_instr_iff row c.inst).mpr ⟨hcsr, fun e => (hch e).1⟩
    exact ⟨row.instr c.inst, (decodeWord_ok_iff _ _).mpr ⟨row, hm, rfl, hwf⟩, by
      rw [opcode_instr]; exact fun e => (hch e).2⟩
  · rintro ⟨i, hi, hp⟩
    obtain ⟨row, hm, rfl, hwf⟩ := (decodeWord_ok_iff _ _).mp hi
    obtain ⟨hcsr, hch⟩ := (wellFormed_instr_iff row c.inst).mp hwf
    rw [opcode_instr] at hp
    exact ⟨row, hm, hcsr, fun e => ⟨hch e, hp e⟩⟩

theorem exec_chsend_illegal {w : Imm7} (he : s.err = none) (hp : ¬s.op2.toNat ≤ 2 ^ 32) :
    exec (.chsend w) s = .next (s.raise .illegalCommand) := by
  have hc : channelLegal w s.op2 = false := by
    rw [Bool.eq_false_iff, ne_eq, channelLegal_iff]
    exact fun h => hp h.2
  rw [exec, execChsend, hc]
  exact perform_error he

theorem exec_chsend_legal {w : Imm7} (he : s.err = none) (hw : w.toNat ≤ 64) (hp : s.op2.toNat ≤ 2 ^ 32) :
    ∃ g x, exec (.chsend w) s = .next ((s.setRng g).respond x) := by
  rw [exec, execChsend, if_pos (channelLegal_iff.mpr ⟨hw, hp⟩)]
  exact ⟨_, _, perform_ok he⟩

theorem runCommand_malformed (he : s.err = none) (h : ¬LegalCommand s.cmd) :
    runCommand s = .next (s.raise .illegalCommand) := by
  cases hd : decodeWord s.inst with
  | error e => rw [runCommand_error hd, perform_error he]
  | ok i =>
    obtain ⟨hch, hp⟩ : i.opcode = .chsend ∧ ¬s.op2.toNat ≤ 2 ^ 32 := by
      by_contra hn
      exact h (legalCommand_iff.mpr ⟨i, hd, fun e => by_contra fun hp => hn ⟨e, hp⟩⟩)
    obtain ⟨w, rfl⟩ : ∃ w, i = .chsend w := by cases i <;> simp_all [Instr.opcode]
    rw [runCommand_ok hd, exec_chsend_illegal he hp]

theorem raisesKind_illegalCommand (h : raisesKind i = some .illegalCommand) :
    (∃ n, i = .rdcsr n) ∨ ∃ w, i = .chsend w := by
  cases i <;> simp_all [raisesKind]

/-- Past the range checks no command raises `IllegalCommand`. -/
theorem exec_err_ne_illegalCommand (he : s.err = none) (hwf : i.wellFormed = true)
    (hp : i.opcode = .chsend → s.op2.toNat ≤ 2 ^ 32) (h : exec i s = .next t) : t.err ≠ some .illegalCommand := by
  by_cases hk : raisesKind i = some .illegalCommand
  · rcases raisesKind_illegalCommand hk with ⟨n, rfl⟩ | ⟨w, rfl⟩
    · rw [exec_rdcsr hwf] at h
      cases h
      simp [he]
    · obtain ⟨g, x, hg⟩ := exec_chsend_legal (w := w) he (of_decide_eq_true hwf) (hp rfl)
      rw [hg] at h
      cases h
      simp [he]
  · rcases exec_cases h with ⟨x, hne, _⟩ | ⟨k, _, hr, rfl⟩ | ⟨t, x, _, hw, rfl⟩
    · exact absurd he hne
    · exact fun e => hk (hr.trans e)
    · simp [hw.err, he]

/-! ## Operand words a command does not read -/

/-- A rule's answer with the command port's three values replaced. -/
def Answer.accept (c : Command) : Answer → Answer
  | .error k => .error k
  | .ok (t, x) => .ok (t.accept c, x)

@[simp] theorem Answer.accept_error (c : Command) (k : ErrKind) : Answer.accept c (.error k) = .error k := rfl

@[simp] theorem Answer.accept_ok (c : Command) (t : State) (x : Word) :
    Answer.accept c (.ok (t, x)) = .ok (t.accept c, x) := rfl

@[simp] theorem Answer.accept_ite (c : Command) {p : Prop} [Decidable p] (a b : Answer) :
    Answer.accept c (if p then a else b) = if p then a.accept c else b.accept c :=
  apply_ite (Answer.accept c) p a b

/-- `perform` reads no operand word, only `inst` when it raises. -/
theorem perform_accept {a : Answer} (hc : c.inst = s.inst) (h : s.perform a = .next t) :
    (s.accept c).perform (a.accept c) = .next (t.accept c) := by
  rcases perform_cases h with ⟨he, rfl⟩ | ⟨he, k, rfl, rfl⟩ | ⟨he, t, x, rfl, rfl⟩
  · obtain ⟨k, hk⟩ := Option.ne_none_iff_exists'.mp he
    exact perform_faulted hk
  · rw [Answer.accept_error, perform_error (s := s.accept c) he, raise_eq, raise_eq]
    simp only [State.accept, hc]
  · exact perform_ok he

/-- The rule of every command but a legal `RDCSR` gives the same answer when only unread operands differ. -/
theorem exec_perform_accept (i : Instr) (h1 : readsOp1 i = true → c.op1 = s.op1)
    (h2 : readsOp2 i = true → c.op2 = s.op2) (hi : ∀ n, i = .rdcsr n → csrLegal n = false) :
    ∃ a, exec i s = s.perform a ∧ exec i (s.accept c) = (s.accept c).perform (a.accept c) := by
  cases i with
  | rdcsr n =>
    have hraises (s : State) : exec (.rdcsr n) s = s.perform (.error .illegalCommand) := by
      simp [exec, execRdcsr, hi n rfl]
    exact ⟨_, hraises s, hraises _⟩
  | nop | mdim | transp | rref =>
    refine ⟨.ok (_, _), rfl, ?_⟩
    rfl
  | mzero | mident | get | set | rowrd | append | rowxor | rowswap | deriveh | tbuild =>
    refine ⟨_, rfl, ?_⟩
    rw [Answer.accept_ite]; rfl
  | tlookup | chseed =>
    refine ⟨.ok (_, _), rfl, ?_⟩
    rw [← h1 rfl]; rfl
  | mulr =>
    refine ⟨_, rfl, ?_⟩
    rw [Answer.accept_ite, ← h1 rfl]; rfl
  | rowwr | decode =>
    refine ⟨_, rfl, ?_⟩
    rw [Answer.accept_ite, Answer.accept_ite, ← h1 rfl]; rfl
  | extract | chsend =>
    refine ⟨_, rfl, ?_⟩
    rw [Answer.accept_ite, ← h1 rfl, ← h2 rfl]; rfl

theorem exec_accept (hc : c.inst = s.inst) (h1 : readsOp1 i = true → c.op1 = s.op1)
    (h2 : readsOp2 i = true → c.op2 = s.op2) (h : exec i s = .next t) :
    exec i (s.accept c) = .next (t.accept c) := by
  by_cases hi : ∀ n, i = .rdcsr n → csrLegal n = false
  · obtain ⟨a, ha, hac⟩ := exec_perform_accept i h1 h2 hi
    rw [hac]
    exact perform_accept hc (ha ▸ h)
  · obtain ⟨n, rfl, hn⟩ : ∃ n, i = .rdcsr n ∧ csrLegal n = true := by simpa using hi
    rw [exec_rdcsr hn] at h ⊢
    cases h
    rfl

end

/-! ## The obligations -/

/-- Settles O1: the encoding matches the command's row, and the fields read back are its operands. -/
theorem decodeOfEncodeIsTheInstruction : Obligations.DecodeOfEncodeIsTheInstruction := by
  intro i hwf
  exact (decodeWord_ok_iff _ _).mpr ⟨i.opcode, encode_and_maskWord i, (instr_encode i).symm, hwf⟩

/-- Settles O2: the word and the encoding match one row and hold the same command. -/
theorem encodeOfDecodeIsTheWord : Obligations.EncodeOfDecodeIsTheWord := by
  intro x i h
  obtain ⟨row, hm, rfl, hwf⟩ := (decodeWord_ok_iff _ _).mp h
  exact ⟨encode_instr hm, hwf⟩

/-- Settles O3: what the decoder accepts, with its range checks on the bits of the word. -/
theorem wordIsTheCommandOfTheRowItMatches : Obligations.WordIsTheCommandOfTheRowItMatches := by
  intro x row
  rw [← wellFormed_instr_iff]
  constructor
  · rintro ⟨i, hi, rfl⟩
    obtain ⟨row, hm, rfl, hwf⟩ := (decodeWord_ok_iff _ _).mp hi
    rw [opcode_instr]
    exact ⟨hm, hwf⟩
  · rintro ⟨hm, hwf⟩
    exact ⟨row.instr x, (decodeWord_ok_iff _ _).mpr ⟨row, hm, rfl, hwf⟩, opcode_instr row x⟩

/-- Settles O4: every mask covers the opcode field, and no two rows have one opcode. -/
theorem noWordMatchesTwoRows : Obligations.NoWordMatchesTwoRows :=
  fun _ _ _ ha hb => matchWord_row_unique ha hb

/-- Settles O7: a malformed word stops at the decoder, a threshold out of range at `CHSEND`; no other command
raises `IllegalCommand`. -/
theorem malformedCommandsRaiseIllegalCommand : Obligations.MalformedCommandsRaiseIllegalCommand := by
  intro s c rest hin hresp herr
  have hstep : step s = runCommand ((s.setInputs rest).accept c) := step_command hin hresp
  refine ⟨fun h => hstep.trans (runCommand_malformed herr h), fun h => ?_⟩
  obtain ⟨i, hi, hp⟩ := legalCommand_iff.mp h
  obtain ⟨_, hwf⟩ := encodeOfDecodeIsTheWord _ _ hi
  have hexec : step s = exec i ((s.setInputs rest).accept c) := hstep.trans (runCommand_ok hi)
  exact ⟨i, hi, hexec, fun t ht =>
    exec_err_ne_illegalCommand (s := (s.setInputs rest).accept c) herr hwf hp (hexec.symm.trans ht)⟩

/-- Settles O11: every outcome of a command presents a response and keeps the ports. -/
theorem everyAcceptedCommandGetsItsResponse : Obligations.EveryAcceptedCommandGetsItsResponse := by
  intro s t c rest hin hresp h
  rw [step_command hin hresp] at h
  exact ⟨runCommand_answered h, runCommand_ports h⟩

/-- Settles O21: the command runs alike with the port's values replaced. -/
theorem unreadOperandsHaveNoEffect : Obligations.UnreadOperandsHaveNoEffect :=
  fun _ s _ a b h1 h2 h => exec_accept (c := { s.cmd with op1 := a, op2 := b }) rfl h1 h2 h

/-- Settles O5: each word is evaluated. -/
theorem sampleWordsDecode : Obligations.SampleWordsDecode := by
  unfold Obligations.SampleWordsDecode
  decide

/-- Settles O6: the command at the head of the list is accepted on an idle port. -/
theorem stepRunsTheDecodedCommand : Obligations.StepRunsTheDecodedCommand := by
  intro s c rest i hin hresp hi
  rw [step_command hin hresp]
  exact runCommand_ok hi

/-- Settles O8: the next event in each of the five situations. -/
theorem responseIsHandedOverBeforeTheNextCommand : Obligations.ResponseIsHandedOverBeforeTheNextCommand := by
  refine ⟨fun s c rest r hin hr => ?_, fun s c d rest r hin hr => ?_, fun s rest r hin hr => ?_,
    fun s rest hin hr => ?_, fun s hin => step_waits (nextEvent_nil hin)⟩
  · rw [step_takeResponse (nextEvent_held_takeResponse hin (by simp [hr]))]
    exact congrArg _ (State.handOver_some (s.setInputs _) hr)
  · exact step_waits (nextEvent_held_command hin (by simp [hr]))
  · rw [step_takeResponse (nextEvent_takeResponse hin)]
    exact congrArg _ (State.handOver_some (s.setInputs _) hr)
  · rw [step_takeResponse (nextEvent_takeResponse hin)]
    exact congrArg _ (State.handOver_none (s.setInputs _) hr)

/-- Settles O16: no error kind has code 0. -/
theorem faultOutputIsHighExactlyInTheFaultState : Obligations.FaultOutputIsHighExactlyInTheFaultState := by
  intro s
  rw [State.faultPin, bne_iff_ne, ne_eq, State.errCode_eq_zero_iff]

end Sys2Proof.Machine
end

section
/-!
The family of 40_bitmatrix.md. First how a command ends outside the fault state, in the records the statements write;
then the facts about matrix values that Sys2Proof/Laws/Matrix.lean does not state; the obligations are short uses of
both.
-/

namespace Sys2Proof.Machine

open Sys2Proof

/-! ## How a command ends outside the fault state -/

section

variable {s : State} {p : Prop} [Decidable p]

/-- A matrix register written and `rdata` 0. -/
theorem setMat_respond_eq (he : s.err = none) (j : MReg) (m : BitMatrix) :
    (s.setMat j m).respond 0 = { s with mats := s.mats.set j m, resp := some { err := 0, rdata := 0 } } :=
  respond_eq (s := s.setMat j m) he 0

theorem State.mat_respond_setMat (s : State) (j : MReg) (m : BitMatrix) (x : Word) :
    ((s.setMat j m).respond x).mat j = m := by
  rw [State.mat_congr (State.respond_mats _ x), State.mat_setMat, if_pos rfl]

/-- Of two writes to one register, each with its response, the second stands. -/
theorem State.respond_setMat_twice (s : State) (j : MReg) (m n : BitMatrix) (x y : Word) :
    (((s.setMat j m).respond x).setMat j n).respond y = (s.setMat j n).respond y := by
  have hmats : (((s.setMat j m).respond x).setMat j n).mats = (s.setMat j n).mats := Vector.set_set m j.isLt
  exact congrArg (fun v => { (s.setMat j n).respond y with mats := v }) hmats

/-- A rule whose test holds writes its destination register and the response. -/
theorem perform_writes (he : s.err = none) (hp : p) (j : MReg) (m : BitMatrix) (k : ErrKind) :
    s.perform (if p then .ok (s.setMat j m, 0) else .error k) =
      .next { s with mats := s.mats.set j m, resp := some { err := 0, rdata := 0 } } := by
  rw [if_pos hp, perform_ok he, setMat_respond_eq he]

/-- A rule whose test holds and that writes nothing only responds. -/
theorem perform_answers (he : s.err = none) (hp : p) (x : Word) (k : ErrKind) :
    s.perform (if p then .ok (s, x) else .error k) = .next { s with resp := some { err := 0, rdata := x } } := by
  rw [if_pos hp, perform_ok he, respond_eq he]

/-- A rule whose test fails raises, with none of its writes (R244). -/
theorem perform_raises (he : s.err = none) (hp : ¬p) (a : Answer) (k : ErrKind) :
    s.perform (if p then a else .error k) =
      .next { s with err := some k, ecmd := s.cmd.inst, resp := some { err := k.code, rdata := 0 } } := by
  rw [if_neg hp, perform_error he, raise_eq]

theorem exec_transp (he : s.err = none) (md ma : MReg) :
    exec (.transp md ma) s = .next ((s.setMat md (s.mat ma).transpose).respond 0) :=
  perform_ok he

theorem exec_rowwr_of_hasRow {md : MReg} {row : Imm7} (hr : row.toNat < (s.mat md).rows) :
    exec (.rowwr md row) s = s.perform
      (if overWide s.op1 (s.mat md).cols then .error .indexError
      else .ok (s.setMat md ((s.mat md).setRow row.toNat s.op1), 0)) := by
  rw [exec, execRowwr, if_pos (hasRow_iff.mpr hr)]

theorem exec_mulr_within {ma : MReg} (he : s.err = none) (hv : s.op1 >>> (s.mat ma).cols = 0) :
    exec (.mulr ma) s = .next (s.respond ((s.mat ma).mulr s.op1)) := by
  rw [exec, execMulr, (overWide_eq_false_iff _ _).mpr hv]
  exact perform_ok he

theorem exec_mulr_overWide {ma : MReg} (he : s.err = none) (hv : s.op1 >>> (s.mat ma).cols ≠ 0) :
    exec (.mulr ma) s = .next (s.drew.respond (Config.anyWord s.free)) := by
  rw [exec, execMulr, (overWide_eq_true_iff _ _).mpr hv]
  exact perform_ok he

end

/-! ## Matrix values -/

/-- The two fields of `MDIM` do not overlap. -/
theorem toNat_packDims {rows cols : Nat} (hr : rows ≤ 64) (hc : cols ≤ 64) :
    (packDims rows cols).toNat = 2 ^ 8 * rows + cols := by
  rw [packDims, ← Nat.shiftLeft_add_eq_or_of_lt (by omega), Nat.shiftLeft_eq, BitVec.toNat_ofNat]
  omega

theorem and_xor_left (x y z : Word) : x &&& (y ^^^ z) = (x &&& y) ^^^ (x &&& z) := by
  refine BitVec.eq_of_getLsbD_eq fun i _ => ?_
  simp only [BitVec.getLsbD_and, BitVec.getLsbD_xor, Bool.and_xor_distrib_left]

namespace Mat

variable {m a g : BitMatrix} {r c q p : Nat}

theorem lt_rows_of_getElem? {x : Word} (h : m.w[r]? = some x) : r < m.rows :=
  (List.getElem?_eq_some_iff.mp h).1

theorem setBit_rows (b : Bool) : (m.setBit r c b).rows = m.rows := setRow_rows _

theorem setBit_cols (b : Bool) : (m.setBit r c b).cols = m.cols := rfl

/-- Of every bit of every row word, entry or not, only the named entry's changes. -/
theorem setBit_getLsbD (hm : m.wf) (hc : c < m.cols) (b : Bool) (hq : q < m.rows) :
    ((m.setBit r c b).row q).getLsbD p =
      if q = r ∧ p = m.cols - 1 - c then b else (m.row q).getLsbD p := by
  rw [BitMatrix.setBit, setRow_row _ hq]
  by_cases hqr : r = q
  · subst hqr
    by_cases hp : p < 64
    · simp only [if_true, true_and, getLsbD_putBit _ _ _ hp]
    · obtain ⟨_, hcols, _⟩ := hm
      rw [if_pos rfl, if_neg (by omega), BitVec.getLsbD_of_ge _ _ (by omega), BitVec.getLsbD_of_ge _ _ (by omega)]
  · rw [if_neg hqr, if_neg fun h => hqr h.1.symm]

theorem transpose_transpose (ha : a.wf) : a.transpose.transpose = a := by
  have hrows : a.transpose.transpose.rows = a.rows := transpose_rows
  have hcols : a.transpose.transpose.cols = a.cols := transpose_rows
  refine ext (transpose_wf (transpose_wf ha)) ha hrows hcols fun r c hr hc => ?_
  rw [hrows] at hr
  rw [hcols] at hc
  rw [transpose_bit (transpose_wf ha).1 (by rwa [transpose_rows]) hr, transpose_bit ha.1 hr hc]

/-- Each row of the product is a parity, and parity is linear; the width of the vectors does not matter. -/
theorem mulr_xor (h : m.rows ≤ 64) (v1 v2 : Word) : m.mulr (v1 ^^^ v2) = m.mulr v1 ^^^ m.mulr v2 := by
  refine word_ext (mulr_shift h _) (xor_shift (mulr_shift h _) (mulr_shift h _)) fun i hi => ?_
  rw [BitVec.getLsbD_xor, mulr_getLsbD h _ hi, mulr_getLsbD h _ hi, mulr_getLsbD h _ hi, ← parity_xor,
    and_xor_left]

/-- Row `j` of the transpose is column `j`, so the product with it sums over the rows. -/
theorem transpose_mulr_bit (hg : g.wf) (v : Word) (hc : c < g.cols) :
    (g.transpose.mulr v).getLsbD (g.cols - 1 - c) =
      xorSum g.rows fun i => v.getLsbD (g.rows - 1 - i) && g.bit i c := by
  have hbit := mulr_bit (transpose_wf hg) v (r := c) (by rwa [transpose_rows])
  rw [transpose_rows, transpose_cols] at hbit
  rw [hbit]
  refine xorSum_congr fun i hi => ?_
  rw [transpose_bit hg.1 hi hc, Bool.and_comm]

end Mat

/-! ## The obligations -/

/-- Settles O25: the identity of `Sys2Proof/Laws/Matrix.lean`, when the dimensions are legal. -/
theorem midentBuildsTheIdentity : Obligations.MidentBuildsTheIdentity := by
  intro md rows cols s he
  refine ⟨rfl, fun hd => ?_, fun hd => perform_raises he (mt dimsLegal_iff.mp (by omega)) _ _⟩
  obtain ⟨hr, hc⟩ := hd
  exact ⟨_, perform_writes he (dimsLegal_iff.mpr ⟨hr, hc⟩) _ _ _, Mat.ident_wf hr hc, Mat.ident_rows _ _, rfl,
    fun r c hrr hcc => Mat.ident_bit hrr hcc hc⟩

/-- Settles O28: within bounds one bit of one row word is put. -/
theorem setWritesTheEntryAlone : Obligations.SetWritesTheEntryAlone := by
  intro md row col b s he
  refine ⟨rfl, fun hm hr hc => ?_, fun h => perform_raises he (mt hasEntry_iff.mp (by omega)) _ _⟩
  refine ⟨_, perform_writes he (hasEntry_iff.mpr ⟨hr, hc⟩) _ _ _, Mat.setBit_wf hm hc b, Mat.setBit_rows b,
    Mat.setBit_cols b, fun r p hrm => ?_⟩
  rw [Mat.setBit_rows] at hrm
  exact Mat.setBit_getLsbD hm hc b hrm

/-- Settles O31: within the width the rows' parities, sums over the columns; beyond it a free value. -/
theorem mulrIsTheMatrixVectorProduct : Obligations.MulrIsTheMatrixVectorProduct := by
  intro ma s he
  refine ⟨rfl, fun hm hv => ?_, fun hv => ⟨Config.anyWord s.free, s.free + 1, ?_⟩⟩
  · refine ⟨_, ?_, Mat.mulr_shift hm.1 _, fun r hr => Mat.mulr_bit hm _ hr⟩
    rw [exec_mulr_within he hv, respond_eq he]
  · exact (exec_mulr_overWide he hv).trans (congrArg _ (respond_eq (s := s.drew) he _))

/-- Settles O32: a region within the source has dimensions at most 64. -/
theorem extractCopiesTheRegion : Obligations.ExtractCopiesTheRegion := by
  intro md ma rows cols s he
  refine ⟨rfl, fun hm hr hc => ?_, fun h => perform_raises he (fun hreg => ?_) _ _⟩
  · obtain ⟨hrows, hcols, _⟩ := hm
    exact ⟨_, perform_writes he (hasRegion_iff.mpr ⟨hr, hc⟩) _ _ _, Mat.extract_wf (by omega) (by omega),
      Mat.extract_rows _ _ _ _, Mat.extract_cols _ _ _ _, fun r c hrr hcc => Mat.extract_bit hrr hcc hc hcols⟩
  · obtain ⟨hr, hc⟩ := hasRegion_iff.mp hreg
    exact h.elim (Nat.not_lt.mpr hr) (Nat.not_lt.mpr hc)

/-- Settles O33: the concatenation, when the row counts agree and the columns fit a word. -/
theorem appendConcatenatesColumns : Obligations.AppendConcatenatesColumns := by
  intro md ma mb s he
  refine ⟨rfl, fun ha ho hr hc => ?_, fun h => perform_raises he ?_ _ _⟩
  · refine ⟨_, perform_writes he ⟨hr, hc⟩ _ _ _, Mat.append_wf ha ho hr hc, Mat.append_rows hr, Mat.append_cols,
      fun r c hrr hcc => ?_⟩
    rw [Mat.append_rows hr] at hrr
    exact Mat.append_bit ho hr hc hrr hcc
  · rintro ⟨hr, hc⟩
    exact h.elim (absurd hr) (Nat.not_lt.mpr hc)

/-- Settles O34: `TRANSP` raises nothing and writes the transpose. -/
theorem transpSwapsRowsAndColumns : Obligations.TranspSwapsRowsAndColumns := by
  intro md ma s he hm
  refine ⟨rfl, _, ?_, Mat.transpose_wf hm, Mat.transpose_rows, Mat.transpose_cols,
    fun i j hi hj => Mat.transpose_bit hm.1 hi hj⟩
  rw [exec_transp he, setMat_respond_eq he]

/-- Settles O35: the second `TRANSP` reads the register the first one wrote, and overwrites it. -/
theorem transposingTwiceCopies : Obligations.TransposingTwiceCopies := by
  intro md ma s he hm
  have he' : ((s.setMat md (s.mat ma).transpose).respond 0).err = none := he
  refine ⟨_, exec_transp he md ma, ?_⟩
  rw [exec_transp he', State.mat_respond_setMat, Mat.transpose_transpose hm, State.respond_setMat_twice,
    setMat_respond_eq he]

/-- Settles O36: the product is linear in all vectors. -/
theorem mulrIsLinear : Obligations.MulrIsLinear :=
  fun _ v1 v2 hm _ _ => Mat.mulr_xor hm.1 v1 v2

/-- Settles O37: the product with the transpose sums over the rows. -/
theorem mulrOfTheTransposeIsTheVectorMatrixProduct : Obligations.MulrOfTheTransposeIsTheVectorMatrixProduct :=
  fun _ m hg _ _ hj => Mat.transpose_mulr_bit hg m hj

/-- Settles O24: the zero matrix is its record. -/
theorem mzeroBuildsTheZeroMatrix : Obligations.MzeroBuildsTheZeroMatrix := by
  intro md rows cols s he
  exact ⟨rfl, fun hd => perform_writes he (dimsLegal_iff.mpr hd) _ _ _,
    fun hd => perform_raises he (mt dimsLegal_iff.mp (by omega)) _ _⟩

/-- Settles O26: a dimension fits its field. -/
theorem mdimAnswersTheDimensions : Obligations.MdimAnswersTheDimensions := by
  intro ma s he hm
  obtain ⟨hrows, hcols, _⟩ := hm
  exact ⟨rfl, _, (perform_ok he).trans (congrArg _ (respond_eq he _)), toNat_packDims hrows hcols⟩

/-- Settles O27: the row word that is there is the one the entry is read from. -/
theorem getReadsTheEntry : Obligations.GetReadsTheEntry := by
  intro ma row col s he
  refine ⟨rfl, fun x hx hc => ?_, fun h => perform_raises he (mt hasEntry_iff.mp (by omega)) _ _⟩
  rw [← Mat.row_of_getElem? hx, ← Mat.bit_eq]
  exact perform_answers he (hasEntry_iff.mpr ⟨Mat.lt_rows_of_getElem? hx, hc⟩) _ _

/-- Settles O29: `rdata` is the row word that is there. -/
theorem rowrdReadsTheRow : Obligations.RowrdReadsTheRow := by
  intro ma row s he
  refine ⟨rfl, fun x hx => ?_, fun h => perform_raises he (mt hasRow_iff.mp (by omega)) _ _⟩
  rw [← Mat.row_of_getElem? hx]
  exact perform_answers he (hasRow_iff.mpr (Mat.lt_rows_of_getElem? hx)) _ _

/-- Settles O30: the row index is tested first; a legal row takes op1 unless op1 is over-wide. -/
theorem rowwrWritesTheRow : Obligations.RowwrWritesTheRow := by
  intro md row s he
  refine ⟨rfl, fun hr hv => ?_, fun h => ?_⟩
  · rw [exec_rowwr_of_hasRow hr, (overWide_eq_false_iff _ _).mpr hv]
    exact (perform_ok he).trans (congrArg _ (setMat_respond_eq he _ _))
  · by_cases hr : row.toNat < (s.mat md).rows
    · have hv := h.resolve_left (Nat.not_le.mpr hr)
      rw [exec_rowwr_of_hasRow hr, (overWide_eq_true_iff _ _).mpr hv]
      exact perform_error he
    · exact perform_raises he (mt hasRow_iff.mp hr) _ _

end Sys2Proof.Machine
end

section
/-!
The family of 41_codebuilder.md. First the shape test of `DERIVEH`; then the two products of R143, entry by entry: a
codeword of a generator in standard form carries its message in the leading columns, and a row of the control matrix
adds the entry its identity block names to a sum over those columns.
-/

namespace Sys2Proof.Machine

open Sys2Proof

/-- `DERIVEH` (R140) with its test read as the legal shape `1 <= k <= n`. -/
theorem exec_deriveh (md ma : MReg) (s : State) :
    exec (.deriveh md ma) s = s.perform
      (if 1 ≤ (s.mat ma).rows ∧ (s.mat ma).rows ≤ (s.mat ma).cols then .ok (s.setMat md (s.mat ma).deriveControl, 0)
      else .error .invalidGeneratorShape) := by
  rw [exec, execDeriveh]
  by_cases hbad : (s.mat ma).rows = 0 ∨ (s.mat ma).cols < (s.mat ma).rows
  · rw [if_pos hbad, if_neg (by omega)]
  · rw [if_neg hbad, if_pos (by omega)]

theorem xorSum_add (a b : Nat) (f : Nat → Bool) :
    xorSum (a + b) f = (xorSum a f ^^ xorSum b fun i => f (a + i)) := by
  induction b with
  | zero => simp [xorSum]
  | succ b ih => rw [← Nat.add_assoc, xorSum, xorSum, ih, Bool.xor_assoc]

namespace Mat

variable {g : BitMatrix} {r c : Nat}

/-- The leading entries of a codeword are the message's: column `c` of the identity block keeps one term (R171). -/
theorem codeword_bit_lt (hg : g.wf) (hstd : g.standardForm) (m : Word) (hc : c < g.rows) :
    (g.transpose.mulr m).getLsbD (g.cols - 1 - c) = m.getLsbD (g.rows - 1 - c) := by
  obtain ⟨_, hk, hid⟩ := hstd
  rw [transpose_mulr_bit hg m (by omega), xorSum_single hc fun i hi hne => ?_]
  · rw [hid c c hc hc, decide_eq_true rfl, Bool.and_true]
  · rw [hid i c hi hc, decide_eq_false hne, Bool.and_false]

/-- The product with `[A^t | I]`: row `r` sums column `r` of `A` over the leading entries, plus entry `r` of the
rest. -/
theorem derive_mulr_bit (hg : g.wf) (hk : g.rows ≤ g.cols) (v : Word) (hr : r < g.cols - g.rows) :
    (g.deriveControl.mulr v).getLsbD (g.cols - g.rows - 1 - r) =
      ((xorSum g.rows fun c => g.bit c (g.rows + r) && v.getLsbD (g.cols - 1 - c)) ^^
        v.getLsbD (g.cols - 1 - (g.rows + r))) := by
  have hrow := mulr_bit (derive_wf hg hk) v (r := r) (by rwa [derive_rows hg hk])
  rw [derive_rows hg hk, derive_cols hg hk] at hrow
  have hsplit := xorSum_add g.rows (g.cols - g.rows) fun c =>
    g.deriveControl.bit r c && v.getLsbD (g.cols - 1 - c)
  rw [Nat.add_sub_cancel' hk] at hsplit
  have hidentity : ∀ i, i < g.cols - g.rows → g.deriveControl.bit r (g.rows + i) = decide (i = r) := fun i hi => by
    rw [derive_bit hg hk hr (by omega), if_neg (by omega), Nat.add_sub_cancel_left]
  rw [hrow, hsplit, xorSum_single hr fun i hi hne => by rw [hidentity i hi, decide_eq_false hne, Bool.false_and],
    hidentity r hr, decide_eq_true rfl, Bool.true_and]
  congr 1
  exact xorSum_congr fun c hc => by rw [derive_bit hg hk hr (by omega), if_pos hc]

/-- Every codeword has syndrome 0: the two summands of a row of the product are the same sum (R143). -/
theorem derive_mulr_codeword (hg : g.wf) (hstd : g.standardForm) (m : Word) :
    g.deriveControl.mulr (g.transpose.mulr m) = 0 := by
  have ⟨_, hk, _⟩ := hstd
  have hhigh := mulr_shift (derive_wf hg hk).1 (g.transpose.mulr m)
  rw [derive_rows hg hk] at hhigh
  refine word_ext hhigh (by simp) fun r hr => ?_
  have hsame : (xorSum g.rows fun c =>
      g.bit c (g.rows + r) && (g.transpose.mulr m).getLsbD (g.cols - 1 - c)) =
        (g.transpose.mulr m).getLsbD (g.cols - 1 - (g.rows + r)) := by
    rw [transpose_mulr_bit hg m (by omega)]
    exact xorSum_congr fun c hc => by rw [codeword_bit_lt hg hstd m hc, Bool.and_comm]
  rw [derive_mulr_bit hg hk _ hr, hsame, Bool.xor_self]
  exact BitVec.getLsbD_zero.symm

end Mat

/-- Settles O41: the control matrix of `Sys2Proof/Laws/Matrix.lean`, when the shape is legal. -/
theorem derivehWritesTheControlMatrix : Obligations.DerivehWritesTheControlMatrix := by
  intro md ma s he
  rw [exec_deriveh]
  refine ⟨rfl, fun hg h1 hk => ?_, fun h => perform_raises he (by omega) _ _⟩
  refine ⟨_, perform_writes he ⟨h1, hk⟩ _ _ _, Mat.derive_wf hg hk, Mat.derive_rows hg hk, Mat.derive_cols hg hk,
    fun r c hr hc => ?_⟩
  rw [Mat.derive_rows hg hk] at hr
  rw [Mat.derive_cols hg hk] at hc
  exact Mat.derive_bit hg hk hr hc

/-- Settles O42: a codeword has syndrome 0 whatever message it comes from. -/
theorem codewordsHaveZeroSyndrome : Obligations.CodewordsHaveZeroSyndrome :=
  fun _ m hg hstd _ => Mat.derive_mulr_codeword hg hstd m

end Sys2Proof.Machine
end

section
/-!
The family of 42_syndrome_table.md. First what `patterns` lists: a word of `n + 1` bits is a word of `n` bits, with bit
`n` set or not. Then the build, whose candidates stand in order of weight, so that the first one that produces a
syndrome has the least weight; then the fields of `TLOOKUP`; the obligations are short uses of these.
-/

namespace Sys2Proof.Machine

open Sys2Proof

/-! ## The vectors of one weight -/

section

variable {x e : Word} {n : Nat}

theorem hammingWeight_eq_zero_iff : hammingWeight x = 0 ↔ x = 0 := by
  refine ⟨fun h => BitVec.eq_of_getLsbD_eq fun i hi => ?_, fun h => h ▸ rfl⟩
  have hclear := List.countP_eq_zero.mp h i (List.mem_range.mpr hi)
  rw [Bool.not_eq_true] at hclear
  exact hclear.trans BitVec.getLsbD_zero.symm

theorem hammingWeight_le (hn : n ≤ 64) (h : x >>> n = 0) : hammingWeight x ≤ n := by
  rw [hammingWeight_eq_popcountBelow hn h, popcountBelow_eq_countP]
  simpa using List.countP_le_length (p := fun p => x.getLsbD p) (l := List.range n)

/-- The words of `n + 1` bits are those of `n` bits, with bit `n` clear or set. -/
theorem ushiftRight_succ_eq_zero_iff (hn : n < 64) :
    e >>> (n + 1) = 0 ↔ e >>> n = 0 ∨ ∃ x : Word, x >>> n = 0 ∧ x ||| oneAt n = e := by
  have hpow := Nat.pow_succ' (m := 2) (n := n)
  constructor
  · intro h
    rw [ushiftRight_eq_zero_iff_toNat, hpow] at h
    by_cases hlow : e.toNat < 2 ^ n
    · exact .inl ((ushiftRight_eq_zero_iff_toNat _ _).mpr hlow)
    · have hval : (BitVec.ofNat 64 (e.toNat - 2 ^ n)).toNat = e.toNat - 2 ^ n :=
        Nat.mod_eq_of_lt (Nat.lt_of_le_of_lt (Nat.sub_le _ _) e.isLt)
      have hshift : BitVec.ofNat 64 (e.toNat - 2 ^ n) >>> n = 0 :=
        (ushiftRight_eq_zero_iff_toNat _ _).mpr (by omega)
      exact .inr ⟨_, hshift, BitVec.eq_of_toNat_eq (by rw [toNat_or_oneAt hn hshift]; omega)⟩
  · rw [ushiftRight_eq_zero_iff_toNat e (n + 1), hpow]
    rintro (h | ⟨x, hx, rfl⟩)
    · rw [ushiftRight_eq_zero_iff_toNat] at h
      omega
    · rw [toNat_or_oneAt hn hx]
      rw [ushiftRight_eq_zero_iff_toNat] at hx
      omega

/-- The new bit adds 1 to the weight. -/
theorem hammingWeight_or_oneAt (hn : n < 64) (h : x >>> n = 0) :
    hammingWeight (x ||| oneAt n) = hammingWeight x + 1 := by
  have hwide := (ushiftRight_succ_eq_zero_iff hn).mpr (.inr ⟨x, h, rfl⟩)
  have hlow : popcountBelow (x ||| oneAt n) n = popcountBelow x n :=
    popcountBelow_congr fun i hi => by simp [Nat.ne_of_lt hi]
  have hbit : (x ||| oneAt n).getLsbD n = true := by simp [hn]
  rw [hammingWeight_eq_popcountBelow hn hwide, hammingWeight_eq_popcountBelow (Nat.le_of_lt hn) h, popcountBelow, hlow,
    hbit, Bool.toNat_true]

end

/-- What `patterns` holds (R151). -/
theorem mem_patterns {n w : Nat} {e : Word} (hn : n ≤ 64) :
    e ∈ patterns n w ↔ e >>> n = 0 ∧ hammingWeight e = w := by
  induction n, w using patterns.induct generalizing e with
  | case1 n =>
    rw [Tab.patterns_zero, List.mem_singleton, hammingWeight_eq_zero_iff]
    exact ⟨fun h => ⟨by simp [h], h⟩, fun h => h.2⟩
  | case2 w =>
    rw [patterns, BitVec.ushiftRight_zero]
    refine ⟨fun h => (List.not_mem_nil h).elim, ?_⟩
    rintro ⟨rfl, h⟩
    rw [hammingWeight_eq_zero_iff.mpr rfl] at h
    cases h
  | case3 n w ihclear ihset =>
    rw [patterns, List.mem_append, List.mem_map, ihclear (by omega), ushiftRight_succ_eq_zero_iff hn, or_and_right]
    refine or_congr_right ⟨?_, ?_⟩
    · rintro ⟨x, hx, rfl⟩
      obtain ⟨hshift, hweight⟩ := (ihset (by omega)).mp hx
      exact ⟨⟨x, hshift, rfl⟩, by rw [hammingWeight_or_oneAt hn hshift, hweight]⟩
    · rintro ⟨⟨x, hshift, rfl⟩, hweight⟩
      rw [hammingWeight_or_oneAt hn hshift] at hweight
      exact ⟨x, (ihset (by omega)).mpr ⟨hshift, Nat.succ.inj hweight⟩, rfl⟩

/-- The order of `patterns` (R152): setting bit `n` keeps the order, and lifts a word above all of `n` bits. -/
theorem patterns_sorted {n w : Nat} (hn : n ≤ 64) : (patterns n w).Pairwise fun a b => a.toNat < b.toNat := by
  induction n, w using patterns.induct with
  | case1 n => rw [Tab.patterns_zero]; exact List.pairwise_singleton _ _
  | case2 w => exact .nil
  | case3 n w ihclear ihset =>
    have hle : n ≤ 64 := by omega
    have hset : ∀ x ∈ patterns n w, (x ||| oneAt n).toNat = 2 ^ n + x.toNat := fun x hx =>
      toNat_or_oneAt hn ((mem_patterns hle).mp hx).1
    rw [patterns, List.pairwise_append, List.pairwise_map]
    refine ⟨ihclear hle, (ihset hle).imp_of_mem fun {x y} hx hy hlt => ?_, fun x hx e he => ?_⟩
    · rw [hset x hx, hset y hy]
      omega
    · obtain ⟨y, hy, rfl⟩ := List.mem_map.mp he
      have := (ushiftRight_eq_zero_iff_toNat _ _).mp ((mem_patterns hle).mp hx).1
      rw [hset y hy]
      omega

/-! ## The built table -/

namespace Tab

variable {t : Table} {h : BitMatrix} {y : Word} {w : Nat}

/-- In a list whose weights never fall, the first match has the least weight of all matches. -/
theorem find?_snd_eq_some_iff {l : List (Word × Nat)} (hl : l.Pairwise fun p q => p.2 ≤ q.2)
    (f : Word × Nat → Bool) :
    (l.find? f).map Prod.snd = some w ↔ (∃ p ∈ l, f p = true ∧ p.2 = w) ∧ ∀ p ∈ l, f p = true → w ≤ p.2 := by
  induction l with
  | nil => simp
  | cons q l ih =>
    obtain ⟨hq, hl⟩ := List.pairwise_cons.mp hl
    cases hf : f q with
    | false => simpa [hf] using ih hl
    | true =>
      rw [List.find?_cons_of_pos hf, Option.map_some, Option.some.injEq]
      constructor
      · rintro rfl
        refine ⟨⟨q, List.mem_cons_self, hf, rfl⟩, fun p hp _ => ?_⟩
        rcases List.mem_cons.mp hp with rfl | hp
        · exact Nat.le_refl _
        · exact hq p hp
      · rintro ⟨⟨p, hp, _, rfl⟩, hleast⟩
        refine Nat.le_antisymm ?_ (hleast q List.mem_cons_self hf)
        rcases List.mem_cons.mp hp with rfl | hp
        · exact Nat.le_refl _
        · exact hq p hp

/-- Every vector of `n` bits is a candidate, with its own weight. -/
theorem mem_candidates {n : Nat} (hn : n ≤ 64) {p : Word × Nat} :
    p ∈ candidates n (List.range (n + 1)) ↔ p.1 >>> n = 0 ∧ hammingWeight p.1 = p.2 := by
  simp only [candidates, List.mem_flatMap, List.mem_range, List.mem_map, mem_patterns hn]
  constructor
  · rintro ⟨w, _, e, he, rfl⟩
    exact he
  · rintro ⟨hshift, hweight⟩
    have := hammingWeight_le hn hshift
    exact ⟨p.2, by omega, p.1, ⟨hshift, hweight⟩, rfl⟩

theorem candidates_weights_sorted (n k : Nat) :
    (candidates n (List.range k)).Pairwise fun p q => p.2 ≤ q.2 := by
  rw [candidates, List.pairwise_flatMap]
  refine ⟨fun w _ => ?_, List.pairwise_lt_range.imp fun {a b} hab p hp q hq => ?_⟩
  · exact List.pairwise_map.mpr (List.pairwise_of_forall fun _ _ => Nat.le_refl w)
  · obtain ⟨_, _, rfl⟩ := List.mem_map.mp hp
    obtain ⟨_, _, rfl⟩ := List.mem_map.mp hq
    exact Nat.le_of_lt hab

/-- The built table gives a syndrome the least weight of a vector that produces it (R153). -/
theorem find_buildTable_iff (hr : h.rows ≤ 64) (hc : h.cols ≤ 64) :
    tableFind (buildTable h) y = some w ↔ h.leaderWeight y w := by
  rw [find_buildTable hr, find?_snd_eq_some_iff (candidates_weights_sorted _ _)]
  simp only [mem_candidates hc, beq_iff_eq, BitMatrix.leaderWeight]
  constructor
  · rintro ⟨⟨p, ⟨hshift, hweight⟩, hy, hw⟩, hleast⟩
    exact ⟨⟨p.1, hshift, hy, hweight.trans hw⟩, fun e he hey => hleast (e, hammingWeight e) ⟨he, rfl⟩ hey⟩
  · rintro ⟨⟨e, hshift, hy, hw⟩, hleast⟩
    exact ⟨⟨(e, w), ⟨hshift, hw⟩, hy, rfl⟩, fun p hp hpy => hp.2 ▸ hleast p.1 hp.1 hpy⟩

/-- The syndromes in the built table are the reachable ones (R153). -/
theorem has_buildTable_iff (hr : h.rows ≤ 64) (hc : h.cols ≤ 64) :
    tableHas (buildTable h) y = true ↔ ∃ e : Word, e >>> h.cols = 0 ∧ h.mulr e = y := by
  rw [tableHas, find_buildTable hr, Option.isSome_map, List.find?_isSome]
  simp only [mem_candidates hc, beq_iff_eq]
  constructor
  · rintro ⟨p, ⟨hshift, _⟩, hy⟩
    exact ⟨p.1, hshift, hy⟩
  · rintro ⟨e, hshift, hy⟩
    exact ⟨(e, hammingWeight e), ⟨hshift, rfl⟩, hy⟩

/-- A table that has every word of `b` bits, and no other, is full. -/
theorem count_of_has_all (hs : tableSorted t) {b : Nat} (hb : b ≤ 64) (hk : ∀ p ∈ t, p.1.toNat < 2 ^ b)
    (hall : ∀ y : Word, y >>> b = 0 → tableHas t y = true) : tableCount t = 2 ^ b := by
  refine Nat.le_antisymm (count_le hs hk) ?_
  have hsub : List.range (2 ^ b) ⊆ t.map fun p => p.1.toNat := by
    intro k hk
    have hlt := List.mem_range.mp hk
    have hval : (BitVec.ofNat 64 k).toNat = k :=
      Nat.mod_eq_of_lt (Nat.lt_of_lt_of_le hlt (Nat.pow_le_pow_right (by omega) hb))
    obtain ⟨n, hn⟩ := has_iff.mp (hall _ ((ushiftRight_eq_zero_iff_toNat _ b).mpr (hval.symm ▸ hlt)))
    exact List.mem_map.mpr ⟨_, mem_of_find hn, hval⟩
  simpa [tableCount] using (List.nodup_range.subperm hsub).length_le

end Tab

/-- The identity block of a derived control matrix: a vector with its leading `k` bits clear is its own syndrome. -/
theorem Mat.derive_mulr_low {g : BitMatrix} (hg : g.wf) (hk : g.rows ≤ g.cols) {y : Word}
    (hy : y >>> (g.cols - g.rows) = 0) : g.deriveControl.mulr y = y := by
  have hhigh := Mat.mulr_shift (Mat.derive_wf hg hk).1 y
  rw [Mat.derive_rows hg hk] at hhigh
  refine Mat.word_ext hhigh hy fun r hr => ?_
  have hleading : (xorSum g.rows fun c => g.bit c (g.rows + r) && y.getLsbD (g.cols - 1 - c)) = false := by
    rw [← xorSum_false g.rows]
    exact xorSum_congr fun c hc => by
      rw [(ushiftRight_eq_zero_iff _ _).mp hy _ (by omega), Bool.and_false]
  have hpos : g.cols - 1 - (g.rows + r) = g.cols - g.rows - 1 - r := by omega
  rw [Mat.derive_mulr_bit hg hk _ hr, hleading, Bool.false_xor, hpos]

/-! ## The answers of the commands -/

/-- `TBUILD` with its test read as the capacity `rows <= SMAX` (R150, R155). -/
theorem exec_tbuild (ma : MReg) (s : State) :
    exec (.tbuild ma) s = s.perform
      (if (s.mat ma).rows ≤ s.smax.val then
        .ok (s.setTable (buildTable (s.mat ma)) (s.mat ma).cols (s.mat ma).rows,
          BitVec.ofNat 64 (tableCount (buildTable (s.mat ma))))
      else .error .capacityError) := by
  rw [exec, execTbuild]
  by_cases hcap : (s.mat ma).rows ≤ s.smax.val
  · rw [if_neg (Nat.not_lt.mpr hcap), if_pos hcap]
  · rw [if_pos (Nat.lt_of_not_le hcap), if_neg hcap]

/-- The two fields of `TLOOKUP` and `RREF` do not overlap. -/
theorem toNat_packFlag (flag : Bool) {low : Nat} (h : low < 2 ^ 7) :
    (packFlag flag low).toNat = 2 ^ 7 * flag.toNat + low := by
  have := Bool.toNat_le flag
  rw [packFlag, ← Nat.shiftLeft_add_eq_or_of_lt h, Nat.shiftLeft_eq, BitVec.toNat_ofNat]
  omega

/-! ## The obligations -/

/-- Settles O43: what `patterns` holds, and its order. -/
theorem patternsListTheVectorsOfOneWeight : Obligations.PatternsListTheVectorsOfOneWeight :=
  fun _ _ hn => ⟨patterns_sorted hn, fun _ => mem_patterns hn⟩

/-- Settles O44: the build within the capacity; its table in canonical form lists what the lookup finds. -/
theorem tbuildWritesTheCosetLeaderWeights : Obligations.TbuildWritesTheCosetLeaderWeights := by
  intro ma s he
  rw [exec_tbuild]
  refine ⟨rfl, fun hm hcap => ?_, fun hover => perform_raises he (Nat.not_le.mpr hover) _ _⟩
  obtain ⟨hrows, hcols, _⟩ := hm
  have hsorted := Tab.buildTable_sorted hrows
  refine ⟨buildTable (s.mat ma), ?_, hsorted, fun y w => ?_⟩
  · rw [if_pos hcap]
    exact (perform_ok he).trans (congrArg _ (respond_eq (s := s.setTable _ _ _) he _))
  · rw [Tab.mem_iff_find hsorted, Tab.find_buildTable_iff hrows hcols]

/-- Settles O45: every syndrome of `n - k` bits is reached, by itself as a vector. -/
theorem theTableOfADerivedControlMatrixIsComplete : Obligations.TheTableOfADerivedControlMatrixIsComplete := by
  intro g hg _ hk
  obtain ⟨hrows, hcols, _⟩ := Mat.derive_wf hg hk
  obtain ⟨hsorted, hkeys⟩ := Tab.buildTable_keysOk hrows
  refine ⟨?_, Tab.find_buildTable_zero hrows⟩
  rw [← Mat.derive_rows hg hk]
  refine Tab.count_of_has_all hsorted hrows hkeys fun y hy => ?_
  rw [Mat.derive_rows hg hk] at hy
  refine (Tab.has_buildTable_iff hrows hcols).mpr ⟨y, ?_, Mat.derive_mulr_low hg hk hy⟩
  rw [ushiftRight_eq_zero_iff] at hy ⊢
  rw [Mat.derive_cols hg hk]
  exact fun p hp => hy p (by omega)

/-- Settles O46: in a table in canonical form the lookup finds the one entry, and its weight fits its field. -/
theorem tlookupAnswersTheEntry : Obligations.TlookupAnswersTheEntry := by
  intro s he hinv
  obtain ⟨_, ⟨hsorted, hbounds, _, htn, _⟩, _⟩ := hinv
  refine ⟨rfl, _, (perform_ok he).trans (congrArg _ (respond_eq he _)), fun w hw => ?_, fun habsent => ?_⟩
  · have hfind := Tab.find_of_mem hsorted hw
    have hweight : w ≤ s.tn := (hbounds _ hw).2
    rw [Tab.has_iff.mpr ⟨w, hfind⟩, Tab.weight_of_find hfind, toNat_packFlag true (by omega)]
    rfl
  · have hfind : tableFind s.tab s.op1 = none :=
      Tab.find_none_iff.mpr fun p hp (hkey : p.1 = s.cmd.op1) => habsent p.2 (hkey ▸ hp)
    rw [tableHas, tableWeight, hfind]
    rfl

end Sys2Proof.Machine
end

section
/-!
The family of 43_codec.md. First the greedy pass as a fold: each position is one step on the working vector, and
leaving the loop at weight 0 is stepping on without a change. Then the answers of `DECODE`, and the leading bits of a
codeword; the obligations are short uses of these.
-/

namespace Sys2Proof.Machine

open Sys2Proof

/-! ## The greedy pass -/

section

variable {h : BitMatrix} {t : Table} {r : Word} {i : Nat}

theorem oneAt_shift {p n : Nat} (hp : p < n) : oneAt p >>> n = 0 := by
  rw [ushiftRight_eq_zero_iff]
  intro q hq
  rw [getLsbD_oneAt, decide_eq_false (by omega), Bool.false_and]

/-- One visit of R170: position `i`, counted from the most significant end, is flipped at a weight that is not 0 and
that the flip strictly lowers. -/
def greedyStep (h : BitMatrix) (t : Table) (r : Word) (i : Nat) : Word :=
  if tableWeight t (h.mulr r) ≠ 0 ∧
      tableWeight t (h.mulr (r ^^^ oneAt (h.cols - i - 1))) < tableWeight t (h.mulr r) then
    r ^^^ oneAt (h.cols - i - 1)
  else r

theorem greedyStep_of_weight_zero (hw : tableWeight t (h.mulr r) = 0) (i : Nat) : greedyStep h t r i = r :=
  if_neg fun hflip => hflip.1 hw

theorem greedyStep_of_weight_ne_zero (hw : tableWeight t (h.mulr r) ≠ 0) (i : Nat) :
    greedyStep h t r i =
      if tableWeight t (h.mulr (r ^^^ oneAt (h.cols - i - 1))) < tableWeight t (h.mulr r) then
        r ^^^ oneAt (h.cols - i - 1)
      else r := by
  simp only [greedyStep, ne_eq, hw, not_false_eq_true, true_and]

/-- A flip within the width keeps the vector within the width. -/
theorem greedyStep_shift (hi : i < h.cols) (hr : r >>> h.cols = 0) : greedyStep h t r i >>> h.cols = 0 := by
  rw [greedyStep]
  split
  · exact Mat.xor_shift hr (oneAt_shift (by omega))
  · exact hr

/-- The pass is the fold of its step: at weight 0 every step still to come keeps the vector (R170). -/
theorem greedyPass_eq_foldl (is : List Nat) (r : Word) :
    greedyPass h t is r = is.foldl (greedyStep h t) r := by
  induction is generalizing r with
  | nil => rfl
  | cons i is ih =>
    rw [greedyPass, List.foldl_cons]
    by_cases hw : tableWeight t (h.mulr r) = 0
    · rw [if_pos hw, greedyStep_of_weight_zero hw, List.foldl_fixed' (greedyStep_of_weight_zero hw)]
    · rw [if_neg hw, greedyStep_of_weight_ne_zero hw, ih, ih, apply_ite (List.foldl (greedyStep h t) · is)]

/-- The last position is visited with what the earlier ones leave. -/
theorem greedyPass_range_succ (n : Nat) (r : Word) :
    greedyPass h t (List.range (n + 1)) r = greedyStep h t (greedyPass h t (List.range n) r) n := by
  rw [greedyPass_eq_foldl, greedyPass_eq_foldl, List.range_succ, List.foldl_append]
  rfl

theorem greedyPass_range_shift {n : Nat} (hn : n ≤ h.cols) (hr : r >>> h.cols = 0) :
    greedyPass h t (List.range n) r >>> h.cols = 0 := by
  induction n with
  | zero => exact hr
  | succ n ih =>
    rw [greedyPass_range_succ]
    exact greedyStep_shift (by omega) (ih (by omega))

theorem greedyPass_of_weight_zero (hw : tableWeight t (h.mulr r) = 0) (is : List Nat) :
    greedyPass h t is r = r := by
  rw [greedyPass_eq_foldl, List.foldl_fixed' (greedyStep_of_weight_zero hw)]

/-- The decoded message has `n - k` bits fewer than the vector. -/
theorem decodeVector_toNat_lt (hk : h.rows ≤ h.cols) (hr : r >>> h.cols = 0) :
    (decodeVector h t r).toNat < 2 ^ (h.cols - h.rows) := by
  rw [decodeVector, ← ushiftRight_eq_zero_iff_toNat, ← BitVec.shiftRight_add, Nat.add_sub_cancel' hk]
  exact greedyPass_range_shift (Nat.sub_le _ _) hr

end

/-- In a reachable machine syndrome 0 has weight 0: built tables hold it so, the table of reset is empty (R153,
R172). -/
theorem State.Inv.weight_zero {s : State} (hinv : s.Inv) : tableWeight s.tab 0 = 0 := by
  obtain ⟨_, _, hbuilt, _⟩ := hinv
  rw [State.builtOk] at hbuilt
  split at hbuilt
  · exact Tab.weight_of_find hbuilt
  · rw [hbuilt.1]
    rfl

/-! ## The answers of `DECODE` -/

section

variable {s : State} {ma : MReg}

/-- `DECODE` with its test read as the legal shape `rows <= cols` (R170, R177). -/
theorem exec_decode (ma : MReg) (s : State) :
    exec (.decode ma) s = s.perform
      (if (s.mat ma).rows ≤ (s.mat ma).cols then
        if overWide s.op1 (s.mat ma).cols then .ok (s.drew, Config.anyWord s.free)
        else .ok (s, decodeVector (s.mat ma) s.tab s.op1)
      else .error .invalidControlShape) := by
  rw [exec, execDecode]
  by_cases hk : (s.mat ma).rows ≤ (s.mat ma).cols
  · rw [if_neg (Nat.not_lt.mpr hk), if_pos hk]
  · rw [if_pos (Nat.lt_of_not_le hk), if_neg hk]

theorem exec_decode_within (he : s.err = none) (hk : (s.mat ma).rows ≤ (s.mat ma).cols)
    (hv : s.op1 >>> (s.mat ma).cols = 0) :
    exec (.decode ma) s = .next
      { s with resp := some { err := 0, rdata := decodeVector (s.mat ma) s.tab s.op1 } } := by
  rw [exec_decode, (overWide_eq_false_iff _ _).mpr hv]
  exact perform_answers he hk _ _

theorem exec_decode_overWide (he : s.err = none) (hk : (s.mat ma).rows ≤ (s.mat ma).cols)
    (hv : s.op1 >>> (s.mat ma).cols ≠ 0) :
    exec (.decode ma) s = .next (s.drew.respond (Config.anyWord s.free)) := by
  rw [exec_decode, (overWide_eq_true_iff _ _).mpr hv, if_pos hk]
  exact perform_ok he

/-- A vector with syndrome 0 is answered without a flip, when the table gives syndrome 0 the weight 0. -/
theorem exec_decode_of_syndrome_zero (he : s.err = none) (hk : (s.mat ma).rows ≤ (s.mat ma).cols)
    (hv : s.op1 >>> (s.mat ma).cols = 0) (hsyn : (s.mat ma).mulr s.op1 = 0) (hw : tableWeight s.tab 0 = 0) :
    exec (.decode ma) s = .next { s with resp := some { err := 0, rdata := s.op1 >>> (s.mat ma).rows } } := by
  rw [exec_decode_within he hk hv, decodeVector, greedyPass_of_weight_zero (hsyn ▸ hw)]

end

/-! ## Codewords -/

namespace Mat

variable {g : BitMatrix}

theorem codeword_shift_cols (hg : g.wf) (m : Word) : g.transpose.mulr m >>> g.cols = 0 := by
  have hwide := mulr_shift (transpose_wf hg).1 m
  rwa [transpose_rows] at hwide

/-- The leading `k` bits of a codeword are the message (R171). -/
theorem codeword_shift (hg : g.wf) (hstd : g.standardForm) {m : Word} (hm : m >>> g.rows = 0) :
    g.transpose.mulr m >>> (g.cols - g.rows) = m := by
  have ⟨_, hk, _⟩ := hstd
  refine word_ext (n := g.rows) ?_ hm fun c hc => ?_
  · rw [← BitVec.shiftRight_add, Nat.sub_add_cancel hk, codeword_shift_cols hg]
  · have hpos : g.cols - g.rows + (g.rows - 1 - c) = g.cols - 1 - c := by omega
    rw [BitVec.getLsbD_ushiftRight, hpos, codeword_bit_lt hg hstd m hc]

end Mat

/-! ## The obligations -/

/-- Settles O47: the working vector at position `i` is what the pass over the first `i` positions leaves. -/
theorem decodeIsTheGreedyPass : Obligations.DecodeIsTheGreedyPass := by
  intro ma s he
  refine ⟨rfl, fun _ hk hv => ?_, fun hk hv => ?_, fun hk => ?_⟩
  · exact ⟨fun i => greedyPass (s.mat ma) s.tab (List.range i) s.op1, exec_decode_within he hk hv, rfl,
      fun i _ => greedyPass_range_succ i _, decodeVector_toNat_lt hk hv⟩
  · exact ⟨_, _, (exec_decode_overWide he hk hv).trans (congrArg _ (respond_eq (s := s.drew) he _))⟩
  · rw [exec_decode]
    exact perform_raises he (Nat.not_le.mpr hk) _ _

/-- Settles O48: every table the machine can hold gives syndrome 0 the weight 0. -/
theorem decodeKeepsCodewords : Obligations.DecodeKeepsCodewords :=
  fun _ _ hinv he hk hv hsyn => exec_decode_of_syndrome_zero he hk hv hsyn hinv.weight_zero

/-- Settles O49: the identity block of the generator copies the message. -/
theorem encodingIsSystematic : Obligations.EncodingIsSystematic :=
  fun _ m hg hstd hm => ⟨Mat.codeword_shift hg hstd hm, Mat.codeword_shift_cols hg m⟩

/-- Settles O50: the codeword has syndrome 0, of weight 0 in the built table, and its leading bits are the message. -/
theorem noiselessRoundTrip : Obligations.NoiselessRoundTrip := by
  intro g m ma s hg hstd hm he hmat htab hop
  have ⟨_, hk, _⟩ := hstd
  have hrows : (s.mat ma).rows = g.cols - g.rows := hmat ▸ Mat.derive_rows hg hk
  have hcols : (s.mat ma).cols = g.cols := hmat ▸ Mat.derive_cols hg hk
  have hwithin : s.op1 >>> (s.mat ma).cols = 0 := by rw [hcols, State.op1, hop, Mat.codeword_shift_cols hg]
  have hsyndrome : (s.mat ma).mulr s.op1 = 0 := by rw [hmat, State.op1, hop, Mat.derive_mulr_codeword hg hstd]
  have hweight : tableWeight s.tab 0 = 0 :=
    htab ▸ Tab.weight_of_find (Tab.find_buildTable_zero (Mat.derive_wf hg hk).1)
  have hmessage : s.op1 >>> (s.mat ma).rows = m := by rw [hrows, State.op1, hop, Mat.codeword_shift hg hstd hm]
  rw [exec_decode_of_syndrome_zero he (by omega) hwithin hsyndrome hweight, hmessage]

end Sys2Proof.Machine
end

section
/-!
The family of 44_channel.md. The pass of `CHSEND` over `n` positions in ascending order takes `n` draws, and position
`i` meets draw `i`; the obligations are short uses of these two facts.
-/

namespace Sys2Proof.Machine

open Sys2Proof

/-! ## The channel's pass -/

section

variable {p v : Word} {g : Config.RngState} {n i : Nat}

theorem drawAt_lt (g : Config.RngState) (i : Nat) : drawAt g i < 2 ^ 32 := BitVec.isLt _

/-- One draw per position, whatever the threshold and the earlier draws were (R190). -/
theorem channelPass_rng (is : List Nat) : (channelPass p is v g).2 = rngAfter is.length g := by
  induction is generalizing v g with
  | nil => rfl
  | cons i is ih => exact ih

/-- The last position is visited with what the earlier ones leave, and with the draw they leave. -/
theorem channelPass_concat (is : List Nat) (a : Nat) :
    (channelPass p (is ++ [a]) v g).1 =
      if drawAt g is.length < p.toNat then (channelPass p is v g).1 ^^^ oneAt a else (channelPass p is v g).1 := by
  induction is generalizing v g with
  | nil => rfl
  | cons i is ih => exact ih

/-- Below `n`, bit `i` is toggled exactly when draw `i` is below the threshold (R190, R193). -/
theorem channelPass_range_getLsbD (hi : i < 64) :
    (channelPass p (List.range n) v g).1.getLsbD i =
      (v.getLsbD i ^^ (decide (i < n) && decide (drawAt g i < p.toNat))) := by
  induction n with
  | zero => simp [channelPass]
  | succ n ih =>
    rw [List.range_succ, channelPass_concat, List.length_range, apply_ite (BitVec.getLsbD · i), BitVec.getLsbD_xor,
      ih, getLsbD_oneAt]
    by_cases hin : i = n
    · subst hin
      by_cases hdraw : drawAt g i < p.toNat <;> simp [hdraw, hi]
    · have hlt : i < n + 1 ↔ i < n := by omega
      simp [hin, hlt]

/-- No draw is below the threshold 0 (R191). -/
theorem channelPass_of_never (hp : p.toNat = 0) : (channelPass p (List.range n) v g).1 = v := by
  refine BitVec.eq_of_getLsbD_eq fun i hi => ?_
  rw [channelPass_range_getLsbD hi, hp, decide_eq_false (Nat.not_lt_zero (drawAt g i)), Bool.and_false, Bool.xor_false]

/-- Every draw is below the threshold `2^32` (R191). -/
theorem channelPass_of_always (hn : n ≤ 64) (hp : p.toNat = 2 ^ 32) :
    (channelPass p (List.range n) v g).1 = v ^^^ mask n := by
  refine BitVec.eq_of_getLsbD_eq fun i hi => ?_
  rw [channelPass_range_getLsbD hi, hp, decide_eq_true (drawAt_lt g i), Bool.and_true, BitVec.getLsbD_xor,
    getLsbD_mask hn]

end

/-- `CHSEND` with legal operands writes the generator's state after `width` draws and answers the pass's word. -/
theorem exec_chsend_pass {s : State} {width : Imm7} (he : s.err = none) (hw : width.toNat ≤ 64)
    (hp : s.op2.toNat ≤ 2 ^ 32) :
    exec (.chsend width) s = .next
      { s with
        rng := rngAfter width.toNat s.rng
        resp := some { err := 0, rdata := (channelPass s.op2 (List.range width.toNat) s.op1 s.rng).1 } } := by
  rw [exec, execChsend, if_pos (channelLegal_iff.mpr ⟨hw, hp⟩), perform_ok he,
    respond_eq (s := s.setRng (channelPass _ _ _ _).2) he, channelPass_rng, List.length_range]
  rfl

/-! ## The obligations -/

/-- Settles O51: position `i` of the pass meets draw `i`; illegal operands fail the range test. -/
theorem chsendTogglesByTheDraws : Obligations.ChsendTogglesByTheDraws := by
  intro width s he
  exact ⟨rfl, fun hw hp => ⟨_, exec_chsend_pass he hw hp, fun i hi => channelPass_range_getLsbD hi⟩,
    fun h => perform_raises he (mt channelLegal_iff.mp fun ⟨hw, hp⟩ =>
      h.elim (Nat.not_lt.mpr hw) (Nat.not_lt.mpr hp)) _ _⟩

/-- Settles O52: a draw is never below 0 and always below `2^32`. -/
theorem chsendAtTheBoundaries : Obligations.ChsendAtTheBoundaries := by
  intro width s he hw
  refine ⟨fun hp => ?_, fun hp => ?_⟩
  · have hzero : s.op2.toNat = 0 := congrArg BitVec.toNat hp
    rw [exec_chsend_pass he hw (by omega), channelPass_of_never hzero]
  · rw [exec_chsend_pass he hw (Nat.le_of_eq hp), channelPass_of_always hw hp]
    rfl

/-- Settles O53: `CHSEED` has no operand test, and its one write is the generator's state. -/
theorem chseedReseedsTheGenerator : Obligations.ChseedReseedsTheGenerator :=
  fun s he => ⟨rfl, (perform_ok he).trans (congrArg _ (respond_eq (s := s.setRng (Config.rngSeed s.op1)) he 0))⟩

end Sys2Proof.Machine
end

section
/-!
The family of 45_row_reduce.md. First the two row operations; then the elimination of `RREF` with its loop invariant:
what has been reached once the columns left of column `n` are done. One column of the loop is an exchange of two rows
from `rank` on, which keeps the invariant, and a clearing of the column, which moves it on by one.
-/

namespace Sys2Proof.Machine

open Sys2Proof

/-- The bounds test of the row commands (R210, R212). -/
theorem hasRow_and_hasRow_iff {m : BitMatrix} {r1 r2 : Imm7} :
    (m.hasRow r1 && m.hasRow r2) = true ↔ r1.toNat < m.rows ∧ r2.toNat < m.rows := by
  rw [Bool.and_eq_true, hasRow_iff, hasRow_iff]

namespace Mat

variable {m : BitMatrix} {piv : List Nat} {n p q r c d i : Nat}

theorem getElem?_eq_row (h : r < m.rows) : m.w[r]? = some (m.row r) := by
  rw [row_of_lt h, List.getElem?_eq_getElem h]

/-! ## The row operations, entry by entry -/

theorem rowSwap_row_of_lt (hpq : p ≤ q) (hip : i < p) (hi : i < m.rows) : (m.rowSwap p q).row i = m.row i := by
  rw [rowSwap_row hi, if_neg (by omega), if_neg (by omega)]

/-- From row `p` on, the exchange of rows `p` and `q` permutes the rows. -/
theorem rowSwap_row_of_ge (hpq : p ≤ q) (hq : q < m.rows) (hpi : p ≤ i) (hi : i < m.rows) :
    ∃ j, p ≤ j ∧ j < m.rows ∧ (m.rowSwap p q).row i = m.row j := by
  rw [rowSwap_row hi]
  split_ifs
  · exact ⟨p, le_rfl, by omega, rfl⟩
  · exact ⟨q, hpq, hq, rfl⟩
  · exact ⟨i, hpi, hi, rfl⟩

theorem rowSwap_bit_left (hpq : p ≤ q) (hq : q < m.rows) (c : Nat) : (m.rowSwap p q).bit p c = m.bit q c := by
  rw [bit_eq, rowSwap_row (by omega), if_pos rfl, rowSwap_cols, bit_eq]
  split_ifs with h
  · rw [h]
  · rfl

theorem clearColumn_bit (hi : i < m.rows) (d : Nat) :
    (m.clearColumn p c).bit i d =
      if i ≠ p ∧ m.bit i c = true then m.bit i d ^^ m.bit p d else m.bit i d := by
  rw [bit_eq, clearColumn_row hi, clearColumn_cols, apply_ite (BitVec.getLsbD · _), BitVec.getLsbD_xor]
  rfl

theorem clearColumn_bit_pivot (hp : p < m.rows) (c d : Nat) : (m.clearColumn p c).bit p d = m.bit p d := by
  rw [clearColumn_bit hp, if_neg fun h => h.1 rfl]

/-- In a column where row `p` is 0, adding it changes nothing. -/
theorem clearColumn_bit_of_zero (hi : i < m.rows) (hd : m.bit p d = false) (c : Nat) :
    (m.clearColumn p c).bit i d = m.bit i d := by
  rw [clearColumn_bit hi, hd, Bool.xor_false, ite_self]

theorem clearColumn_bit_column (hi : i < m.rows) (hip : i ≠ p) (hp : m.bit p c = true) :
    (m.clearColumn p c).bit i c = false := by
  rw [clearColumn_bit hi, hp]
  split_ifs with hadd
  · rw [hadd.2, Bool.xor_self]
  · exact Bool.eq_false_iff.mpr fun hbit => hadd ⟨hip, hbit⟩

/-! ## The loop of the elimination -/

/-- The invariant of the elimination (R214): the columns left of column `n` are in reduced row echelon form, with
pivot columns `piv`. -/
structure EchelonBelow (m : BitMatrix) (piv : List Nat) (n : Nat) : Prop where
  rank_le : piv.length ≤ m.rows
  rising : piv.Pairwise (· < ·)
  below : ∀ c ∈ piv, c < n
  pivot : ∀ p c, piv[p]? = some c →
    m.bit p c = true ∧ (∀ d, d < c → m.bit p d = false) ∧ ∀ i, i < m.rows → i ≠ p → m.bit i c = false
  rest_zero : ∀ i, piv.length ≤ i → i < m.rows → ∀ d, d < n → m.bit i d = false

theorem EchelonBelow.initial (m : BitMatrix) : EchelonBelow m [] 0 where
  rank_le := Nat.zero_le _
  rising := .nil
  below := nofun
  pivot := nofun
  rest_zero := nofun

/-- A column with no 1 from row `rank` on gives no pivot. -/
theorem EchelonBelow.skip (h : EchelonBelow m piv n)
    (hzero : ∀ i, piv.length ≤ i → i < m.rows → m.bit i n = false) : EchelonBelow m piv (n + 1) where
  rank_le := h.rank_le
  rising := h.rising
  below c hc := Nat.lt_succ_of_lt (h.below c hc)
  pivot := h.pivot
  rest_zero i hi him d hd := by
    rcases Nat.lt_succ_iff_lt_or_eq.mp hd with hlt | rfl
    · exact h.rest_zero i hi him d hlt
    · exact hzero i hi him

/-- An exchange among the rows from `rank` on touches no pivot row, and their columns left of `n` are 0. -/
theorem EchelonBelow.rowSwap (h : EchelonBelow m piv n) (hpq : piv.length ≤ q) (hq : q < m.rows) :
    EchelonBelow (m.rowSwap piv.length q) piv n where
  rank_le := by rw [rowSwap_rows]; exact h.rank_le
  rising := h.rising
  below := h.below
  pivot p c hpc := by
    obtain ⟨hone, hlead, hcolumn⟩ := h.pivot p c hpc
    obtain ⟨hp, _⟩ := List.getElem?_eq_some_iff.mp hpc
    have hsame := rowSwap_row_of_lt hpq hp (Nat.lt_of_lt_of_le hp h.rank_le)
    refine ⟨by rwa [bit_eq, hsame], fun d hd => by rw [bit_eq, hsame]; exact hlead d hd, fun i hi hip => ?_⟩
    rw [rowSwap_rows] at hi
    by_cases hlow : i < piv.length
    · rw [bit_eq, rowSwap_row_of_lt hpq hlow hi]
      exact hcolumn i hi hip
    · obtain ⟨j, hj, hjm, hrow⟩ := rowSwap_row_of_ge hpq hq (Nat.le_of_not_lt hlow) hi
      rw [bit_eq, hrow]
      exact hcolumn j hjm (by omega)
  rest_zero i hi him d hd := by
    rw [rowSwap_rows] at him
    obtain ⟨j, hj, hjm, hrow⟩ := rowSwap_row_of_ge hpq hq hi him
    rw [bit_eq, hrow]
    exact h.rest_zero j hj hjm d hd

theorem EchelonBelow.clearColumn_bit_left (h : EchelonBelow m piv n) (hp : piv.length < m.rows) (hi : i < m.rows)
    (hd : d < n) : (m.clearColumn piv.length n).bit i d = m.bit i d :=
  clearColumn_bit_of_zero hi (h.rest_zero _ le_rfl hp d hd) n

/-- With a 1 at row `rank` the clearing makes column `n` a pivot column, and changes nothing left of it. -/
theorem EchelonBelow.clearColumn (h : EchelonBelow m piv n) (hp : piv.length < m.rows)
    (hone : m.bit piv.length n = true) :
    EchelonBelow (m.clearColumn piv.length n) (piv ++ [n]) (n + 1) where
  rank_le := by rwa [clearColumn_rows, List.length_append]
  rising := List.pairwise_append.mpr ⟨h.rising, List.pairwise_singleton _ _,
    fun c hc d hd => List.mem_singleton.mp hd ▸ h.below c hc⟩
  below c hc := by
    rcases List.mem_append.mp hc with hc | hc
    · exact Nat.lt_succ_of_lt (h.below c hc)
    · exact List.mem_singleton.mp hc ▸ Nat.lt_succ_self n
  pivot p c hpc := by
    rw [clearColumn_rows]
    rcases Nat.lt_trichotomy p piv.length with hlt | rfl | hgt
    · rw [List.getElem?_append_left hlt] at hpc
      obtain ⟨hbit, hlead, hcolumn⟩ := h.pivot p c hpc
      have hcn : c < n := h.below c (List.mem_of_getElem? hpc)
      have hpm : p < m.rows := hlt.trans hp
      exact ⟨by rwa [h.clearColumn_bit_left hp hpm hcn],
        fun d hd => by rw [h.clearColumn_bit_left hp hpm (hd.trans hcn)]; exact hlead d hd,
        fun i hi hip => by rw [h.clearColumn_bit_left hp hi hcn]; exact hcolumn i hi hip⟩
    · obtain rfl : n = c := by simpa using hpc
      exact ⟨by rwa [clearColumn_bit_pivot hp],
        fun d hd => by rw [h.clearColumn_bit_left hp hp hd]; exact h.rest_zero _ le_rfl hp d hd,
        fun i hi hip => clearColumn_bit_column hi hip hone⟩
    · rw [List.getElem?_eq_none (by simpa using hgt)] at hpc
      cases hpc
  rest_zero i hi him d hd := by
    rw [clearColumn_rows] at him
    rw [List.length_append, List.length_singleton] at hi
    rcases Nat.lt_succ_iff_lt_or_eq.mp hd with hlt | rfl
    · rw [h.clearColumn_bit_left hp him hlt]
      exact h.rest_zero i (by omega) him d hlt
    · exact clearColumn_bit_column him (by omega) hone

theorem EchelonBelow.rrefColumn (h : EchelonBelow m piv n) :
    EchelonBelow (rrefColumn m piv n).1 (rrefColumn m piv n).2 (n + 1) := by
  rcases rrefColumn_cases m piv n with ⟨heq, hnone⟩ | ⟨q, hq, hpq, hbit, heq⟩
  · rw [heq]
    refine h.skip fun i hi him => ?_
    rcases hnone with hfull | hzero
    · omega
    · exact hzero i hi him
  · rw [heq]
    have hp : piv.length < m.rows := by omega
    exact (h.rowSwap hpq hq).clearColumn (by rwa [rowSwap_rows]) (by rwa [rowSwap_bit_left hpq hq])

theorem EchelonBelow.rrefColumns (h : EchelonBelow m piv n) (k : Nat) :
    EchelonBelow (rrefColumns m piv (List.range' n k)).1 (rrefColumns m piv (List.range' n k)).2 (n + k) := by
  induction k generalizing m piv n with
  | zero => exact h
  | succ k ih =>
    rw [List.range'_succ, Machine.rrefColumns, show n + (k + 1) = n + 1 + k by omega]
    exact ih h.rrefColumn

theorem rref_echelon (m : BitMatrix) : EchelonBelow m.rref.1 m.rref.2 m.cols := by
  have h := (EchelonBelow.initial m).rrefColumns m.cols
  rwa [Nat.zero_add, ← List.range_eq_range'] at h

/-! ## The row space -/

theorem rrefColumn_span (m : BitMatrix) (piv : List Nat) (c : Nat) (y : Word) :
    InRowSpace (rrefColumn m piv c).1.w y ↔ InRowSpace m.w y := by
  rcases rrefColumn_cases m piv c with ⟨heq, _⟩ | ⟨q, hq, hpq, _, heq⟩
  · rw [heq]
  · have hp : piv.length < m.rows := by omega
    rw [heq, clearColumn_span c (by rwa [rowSwap_rows]), rowSwap_span hp hq]

theorem rrefColumns_span (m : BitMatrix) (piv cs : List Nat) (y : Word) :
    InRowSpace (rrefColumns m piv cs).1.w y ↔ InRowSpace m.w y := by
  induction cs generalizing m piv with
  | nil => rfl
  | cons c cs ih => rw [rrefColumns, ih, rrefColumn_span]

theorem rref_span (m : BitMatrix) (y : Word) : InRowSpace m.rref.1.w y ↔ InRowSpace m.w y :=
  rrefColumns_span m [] _ y

/-! ## What a reduced matrix is -/

theorem row_eq_zero_of_bits (hm : m.wf) (h : ∀ c, c < m.cols → m.bit r c = false) : m.row r = 0 :=
  word_ext (row_shift hm r) (BitVec.zero_ushiftRight ..) fun c hc => (h c hc).trans BitVec.getLsbD_zero.symm

/-- In standard form row `r` has its leading 1 in column `r`, so column `r` is its pivot column. -/
theorem EchelonBelow.pivots_of_standardForm (h : EchelonBelow m piv m.cols) (hstd : m.standardForm) :
    piv = List.range m.rows := by
  obtain ⟨_, hk, hid⟩ := hstd
  have hfull : piv.length = m.rows := by
    refine Nat.le_antisymm h.rank_le (Nat.le_of_not_lt fun hlt => ?_)
    have hzero := h.rest_zero _ le_rfl hlt piv.length (by omega)
    rw [hid _ _ hlt hlt, decide_eq_true rfl] at hzero
    cases hzero
  refine List.ext_getElem (by rw [hfull, List.length_range]) fun r hr _ => ?_
  have hrm : r < m.rows := hfull ▸ hr
  obtain ⟨hone, hlead, _⟩ := h.pivot r _ (List.getElem?_eq_getElem hr)
  rw [List.getElem_range]
  rcases Nat.lt_trichotomy piv[r] r with hlt | heq | hgt
  · rw [hid r _ hrm (by omega), decide_eq_false (by omega)] at hone
    cases hone
  · exact heq
  · have hzero := hlead r hgt
    rw [hid r r hrm hrm, decide_eq_true rfl] at hzero
    cases hzero

theorem EchelonBelow.standardForm_of_pivots (h : EchelonBelow m (List.range m.rows) m.cols) (h1 : 1 ≤ m.rows) :
    m.standardForm := by
  have hlast := h.below (m.rows - 1) (List.mem_range.mpr (by omega))
  refine ⟨h1, by omega, fun r c hr hc => ?_⟩
  obtain ⟨hone, _, hcolumn⟩ := h.pivot c c (List.getElem?_range hc)
  by_cases hrc : r = c
  · rw [hrc, hone, decide_eq_true rfl]
  · rw [hcolumn r hr hrc, decide_eq_false hrc]

/-- The flag of `RREF` says what R214 says of it. -/
theorem EchelonBelow.stdForm_iff (h : EchelonBelow m piv m.cols) :
    stdForm m.rows piv = true ↔ m.standardForm := by
  rw [stdForm, Bool.and_eq_true, decide_eq_true_iff, beq_iff_eq]
  constructor
  · rintro ⟨h1, rfl⟩
    exact h.standardForm_of_pivots h1
  · exact fun hstd => ⟨hstd.1, h.pivots_of_standardForm hstd⟩

theorem toNat_packFlag_stdForm (hm : m.wf) (h : EchelonBelow m piv m.cols) :
    (m.standardForm ∧ (packFlag (stdForm m.rows piv) piv.length).toNat = 2 ^ 7 + piv.length) ∨
      (¬m.standardForm ∧ (packFlag (stdForm m.rows piv) piv.length).toNat = piv.length) := by
  have hrank : piv.length < 2 ^ 7 := Nat.lt_of_le_of_lt (h.rank_le.trans hm.1) (by decide)
  rw [toNat_packFlag _ hrank, ← h.stdForm_iff]
  cases stdForm m.rows piv <;> simp

end Mat

/-! ## The obligations -/

/-- Settles O40: the loop invariant at the last column, and what every column keeps. -/
theorem rrefGivesTheReducedRowEchelonForm : Obligations.RrefGivesTheReducedRowEchelonForm := by
  intro md ma s he hm
  have hrows := Mat.rref_rows (s.mat ma)
  have hcols := Mat.rref_cols (s.mat ma)
  have hwf := Mat.rref_wf hm
  have hech : Mat.EchelonBelow (s.mat ma).rref.1 (s.mat ma).rref.2 (s.mat ma).rref.1.cols :=
    hcols ▸ Mat.rref_echelon (s.mat ma)
  refine ⟨rfl, _, _, _, (perform_ok he).trans (congrArg _ (respond_eq (s := s.setMat md _) he _)), hwf, hrows, hcols,
    Mat.rref_span _, hech.rank_le, hech.rising, hech.below, hech.pivot,
    fun i hi him => Mat.row_eq_zero_of_bits hwf (hech.rest_zero i hi him), ?_⟩
  rw [← hrows]
  exact Mat.toNat_packFlag_stdForm hwf hech

/-- Settles O39: with `r1 = r2` both old row words are the same one. -/
theorem rowswapExchangesRows : Obligations.RowswapExchangesRows := by
  intro md r1 r2 s he
  refine ⟨rfl, fun x y hx hy => ?_, fun h => perform_raises he (mt hasRow_and_hasRow_iff.mp (by omega)) _ _⟩
  have hbounds := And.intro (Mat.lt_rows_of_getElem? hx) (Mat.lt_rows_of_getElem? hy)
  refine ⟨_, perform_writes he (hasRow_and_hasRow_iff.mpr hbounds) _ _ _, Mat.rowSwap_rows _ _,
    Mat.rowSwap_cols _ _, fun r hr => ?_⟩
  rw [Mat.getElem?_eq_row hr]
  rw [Mat.rowSwap_rows] at hr
  rw [Mat.rowSwap_row hr, Mat.row_of_getElem? hx, Mat.row_of_getElem? hy, Mat.getElem?_eq_row hr]
  by_cases h1 : r = r1.toNat
  · subst h1
    rw [if_pos rfl, if_pos rfl]
    split_ifs with h2
    · rw [h2, hx] at hy
      exact hy
    · rfl
  · rw [if_neg h1, if_neg (Ne.symm h1), apply_ite some]
    exact if_congr eq_comm rfl rfl

/-- Settles O38: the two row words that are there are the ones that are added. -/
theorem rowxorAddsARow : Obligations.RowxorAddsARow := by
  intro md dst src s he
  refine ⟨rfl, fun x y hx hy => ?_, fun h => perform_raises he (mt hasRow_and_hasRow_iff.mp (by omega)) _ _⟩
  rw [← Mat.row_of_getElem? hx, ← Mat.row_of_getElem? hy]
  exact perform_writes he
    (hasRow_and_hasRow_iff.mpr ⟨Mat.lt_rows_of_getElem? hx, Mat.lt_rows_of_getElem? hy⟩) _ _ _

end Sys2Proof.Machine
end

section
/-!
The family of 46_system.md. First the fields of `TSTAT` and `CONFIG` as a sum, since no two of them overlap; then the
answer of a malformed `RDCSR`; the obligations are short uses of these.
-/

namespace Sys2Proof.Machine

open Sys2Proof

/-! ## The fields of the registers -/

/-- A field stands above one that does not reach its lowest bit. -/
theorem or_shiftLeft_eq_add {low k : Nat} (h : low < 2 ^ k) (high : Nat) :
    low ||| high <<< k = low + 2 ^ k * high := by
  rw [Nat.or_comm, ← Nat.shiftLeft_add_eq_or_of_lt h, Nat.shiftLeft_eq, Nat.mul_comm, Nat.add_comm]

/-- A one-bit field counts its place value when it is set. -/
theorem mul_toNat_eq_ite (a : Nat) (b : Bool) : a * b.toNat = if b = true then a else 0 := by
  cases b
  · exact Nat.mul_zero a
  · exact Nat.mul_one a

section

variable {s : State}

theorem State.tfull_iff : s.tfull = true ↔ s.tbuilt = true ∧ s.tab.length = 2 ^ s.tbits := by
  rw [State.tfull, Bool.and_eq_true, beq_iff_eq, tableCount]

/-- R31. -/
theorem State.toNat_csrErr (s : State) : s.csrErr.toNat = s.errCode.toNat :=
  BitVec.toNat_setWidth_of_le (by decide)

/-- R32. -/
theorem State.toNat_csrEcmd (s : State) : s.csrEcmd.toNat = s.ecmd.toNat :=
  BitVec.toNat_setWidth_of_le (by decide)

/-- R33: the four fields end below bits 8, 16, 17 and 18. -/
theorem State.toNat_csrTstat (h : s.tableOk) :
    s.csrTstat.toNat = s.tn + 2 ^ 8 * s.tbits + (if s.tbuilt = true then 2 ^ 16 else 0) +
      (if s.tbuilt = true ∧ s.tab.length = 2 ^ s.tbits then 2 ^ 17 else 0) := by
  obtain ⟨_, _, _, htn, htbits⟩ := h
  have hbuilt := Bool.toNat_le s.tbuilt
  have hfull := Bool.toNat_le s.tfull
  rw [← if_congr State.tfull_iff rfl rfl, ← mul_toNat_eq_ite, ← mul_toNat_eq_ite, State.csrTstat,
    or_shiftLeft_eq_add (k := 8) (by omega), or_shiftLeft_eq_add (k := 16) (by omega),
    or_shiftLeft_eq_add (k := 17) (by omega), BitVec.toNat_ofNat]
  exact Nat.mod_eq_of_lt (by omega)

/-- R34. -/
theorem State.toNat_csrTcount (h : s.tableOk) : s.csrTcount.toNat = s.tab.length := by
  obtain ⟨_, _, hcount, _, htbits⟩ := h
  have hpow : 2 ^ s.tbits < 2 ^ 64 := Nat.pow_lt_pow_right (by decide) (by omega)
  rw [State.csrTcount, BitVec.toNat_ofNat]
  exact Nat.mod_eq_of_lt (Nat.lt_of_le_of_lt hcount hpow)

/-- R35: the eight matrix registers, SMAX, and version 1. -/
theorem State.toNat_csrConfig (s : State) : s.csrConfig.toNat = 8 + 2 ^ 8 * s.smax.val + 2 ^ 16 := by
  have hsmax := s.smax.isLt
  rw [State.csrConfig, Config.nmat, Config.version, or_shiftLeft_eq_add (k := 8) (by omega),
    or_shiftLeft_eq_add (k := 16) (by omega), BitVec.toNat_ofNat]
  exact Nat.mod_eq_of_lt (by omega)

/-! ## The answers of `NOP` and of a malformed `RDCSR` -/

/-- A rule that writes nothing and has `rdata` 0 ends alike in and outside the fault state (R244, R245). -/
theorem perform_respond_zero (s : State) : s.perform (.ok (s, 0)) = .next (s.respond 0) := by
  cases he : s.err with
  | none => exact perform_ok he
  | some k => exact perform_faulted he

theorem exec_rdcsr_illegal {n : Imm7} (h : 4 < n.toNat) (s : State) :
    exec (.rdcsr n) s = s.perform (.error .illegalCommand) := by
  rw [exec, execRdcsr, if_neg (mt csrLegal_iff.mp (by omega))]

end

/-! ## The obligations -/

/-- Settles O23: the number selects the register, and each register is the sum of its fields. -/
theorem rdcsrReadsTheRegister : Obligations.RdcsrReadsTheRegister := by
  intro s hinv
  obtain ⟨_, htable, _, _⟩ := hinv
  refine ⟨fun _ => rfl, ⟨s.csr, fun n hn => exec_rdcsr (csrLegal_iff.mpr hn) s, s.toNat_csrErr, s.toNat_csrEcmd,
    State.toNat_csrTstat htable, State.toNat_csrTcount htable, s.toNat_csrConfig⟩, fun n hn => ⟨fun he => ?_,
    fun k he => ?_⟩⟩
  · exact (exec_rdcsr_illegal hn s).trans (perform_error he)
  · rw [exec_rdcsr_illegal hn, perform_faulted he, State.respond, State.errCode_some s he]

/-- Settles O22: a word that decodes to `NOP` is its encoding, which is 0. -/
theorem nopDoesNothing : Obligations.NopDoesNothing := by
  refine ⟨perform_respond_zero, fun x => ⟨fun h => ?_, ?_⟩⟩
  · obtain ⟨hx, _⟩ := encodeOfDecodeIsTheWord x .nop h
    exact hx.symm
  · rintro rfl
    exact decodeOfEncodeIsTheInstruction .nop rfl

end Sys2Proof.Machine
end

section
/-!
The family of 60_exceptions.md. First the answer of every command in the fault state: only a well-formed `RDCSR` is
executed there; then what a new error says of the command that recorded it; the obligations are short uses of both.
-/

namespace Sys2Proof.Machine

open Sys2Proof Sys2Proof.Laws.Encoding

section

variable {s t : State} {i : Instr} {k : ErrKind}

/-! ## The answer in the fault state -/

/-- The words that execute in the fault state: the match and mask of `RDCSR` (R73), its number in 0..4 (R77 (b)). -/
abbrev IsLegalRdcsr (x : CommandWord) : Prop :=
  x &&& 0xFFFFFF80#32 = 0x04000000#32 ∧ (x &&& 0x7F#32).toNat ≤ 4

/-- The `rdata` a command is answered with in the fault state (R245). -/
def State.faultRdata (s : State) : Word :=
  if IsLegalRdcsr s.inst then s.csr (s.inst &&& 0x7F#32).toNat else 0

theorem decodeWord_rdcsr_iff (x : CommandWord) (n : Imm7) :
    decodeWord x = .ok (.rdcsr n) ↔ IsLegalRdcsr x ∧ n = fieldI0 x := by
  rw [decodeWord_ok_iff]
  constructor
  · rintro ⟨row, hm, hi, hwf⟩
    obtain rfl : row = .rdcsr := by rw [← opcode_instr row x, ← hi, Instr.opcode]
    obtain rfl : n = fieldI0 x := Instr.rdcsr.inj hi
    exact ⟨⟨hm, ((wellFormed_instr_iff .rdcsr x).mp hwf).1 rfl⟩, rfl⟩
  · rintro ⟨⟨hm, hrange⟩, rfl⟩
    exact ⟨.rdcsr, hm, rfl, (wellFormed_instr_iff .rdcsr x).mpr ⟨fun _ => hrange, nofun⟩⟩

theorem runCommand_legalRdcsr (h : IsLegalRdcsr s.inst) :
    runCommand s = .next (s.respond (s.csr (s.inst &&& 0x7F#32).toNat)) := by
  have hlegal : csrLegal (fieldI0 s.inst) = true := csrLegal_iff.mpr (by rw [fieldI0_toNat]; exact h.2)
  rw [runCommand_ok ((decodeWord_rdcsr_iff _ _).mpr ⟨h, rfl⟩), exec_rdcsr hlegal, fieldI0_toNat]

theorem runCommand_faulted_of_not_rdcsr (hk : s.err = some k) (h : ¬IsLegalRdcsr s.inst) :
    runCommand s = .next (s.respond 0) := by
  rcases runCommand_cases s with ⟨i, hi, hrun⟩ | ⟨e, _, hrun⟩
  · have hne : ∀ n, i = .rdcsr n → csrLegal n = false := by
      rintro n rfl
      exact absurd ((decodeWord_rdcsr_iff _ _).mp hi).1 h
    obtain ⟨a, ha, _⟩ := exec_perform i s hne
    rw [hrun, ha, perform_faulted hk]
  · rw [hrun, perform_faulted hk]

/-- In the fault state every command only responds, malformed ones included (R245). -/
theorem runCommand_faulted (hk : s.err = some k) : runCommand s = .next (s.respond s.faultRdata) := by
  unfold State.faultRdata
  split
  · next h => exact runCommand_legalRdcsr h
  · next h => exact runCommand_faulted_of_not_rdcsr hk h

/-- A response in the fault state, as the record the statements write. -/
theorem respond_eq_of_faulted (hk : s.err = some k) (x : Word) :
    s.respond x = { s with resp := some { err := k.code, rdata := x } } := by
  rw [State.respond, State.errCode_some s hk]

/-! ## A new error -/

/-- A command that ends with an error that was not recorded before has raised it, and it is of its own kind. -/
theorem exec_raised (he : s.err = none) (h : exec i s = .next t) (hk : t.err = some k) :
    raisesKind i = some k ∧ t = s.raise k := by
  rcases exec_cases h with ⟨x, hne, _⟩ | ⟨k', _, hkind, rfl⟩ | ⟨u, x, _, hw, rfl⟩
  · exact absurd he hne
  · obtain rfl : k' = k := Option.some.inj hk
    exact ⟨hkind, rfl⟩
  · have hnone : (u.respond x).err = none := hw.err.trans he
    rw [hnone] at hk
    cases hk

end

/-! ## The obligations -/

/-- Settles O12: the command is accepted, and only responds. -/
theorem faultStateAnswersWithoutExecuting : Obligations.FaultStateAnswersWithoutExecuting := by
  intro s c rest k hin hresp herr
  have hk : ((s.setInputs rest).accept c).err = some k := herr
  calc step s = runCommand ((s.setInputs rest).accept c) := step_command hin hresp
    _ = .next (((s.setInputs rest).accept c).respond ((s.setInputs rest).accept c).faultRdata) :=
      runCommand_faulted hk
    _ = _ := by rw [respond_eq_of_faulted hk]; rfl

/-- Settles O13: waiting, the taking of a response and a command that only responds keep both fault fields. -/
theorem faultStateIsLeftOnlyByReset : Obligations.FaultStateIsLeftOnlyByReset := by
  intro s t h herr hne
  rcases step_cases h with ⟨_, rfl⟩ | ⟨rest, he, _⟩ | ⟨rest, _, rfl⟩ | ⟨c, rest, _, hrun⟩
  · simp at hne
  · exact ⟨rest, he⟩
  · simp at hne
  · obtain ⟨k, hk⟩ := Option.ne_none_iff_exists'.mp herr
    rw [runCommand_faulted (s := (s.setInputs rest).accept c) hk] at hrun
    cases hrun
    simp at hne

/-- Settles O14: a raise is the one way to a new error. -/
theorem raiseAbortsTheCommand : Obligations.RaiseAbortsTheCommand := by
  intro i s t k he h hk
  obtain ⟨_, ht⟩ := exec_raised he h hk
  rw [ht, raise_eq]

/-- Settles O15: the kind a command raises is the table's, and the codes are evaluated. -/
theorem eachCommandRaisesOnlyItsOwnKind : Obligations.EachCommandRaisesOnlyItsOwnKind := by
  refine ⟨fun i s t k he h hk => ?_, by decide⟩
  obtain ⟨hkind, _⟩ := exec_raised he h hk
  exact hkind

end Sys2Proof.Machine
end

section
/-!
The family of 70_reset_and_hazards.md. First what a step does at a reset and at a stalled port, and that every event
at the ports has a next state; the obligations are short uses of these.
-/

namespace Sys2Proof.Machine

open Sys2Proof

section

variable {s : State} {rest : List PortEvent}

/-! ## Steps -/

/-- R39's values, field by field; SMAX and the host's lists are kept (R35, log entry 9). -/
theorem State.applyReset_eq (s : State) :
    s.applyReset =
      { mats := Vector.replicate 8 BitMatrix.empty, tab := [], tn := 0, tbits := 0, tbuilt := false,
        rng := Config.rngAtReset s.free, err := none, ecmd := 0, smax := s.smax, cmd := ⟨0, 0, 0⟩, resp := none,
        inputs := s.inputs, taken := s.taken, free := s.free + 1 } :=
  rfl

/-- A reset happens next when it is first, and when it stands behind a held command (log entry 3). -/
theorem nextEvent_rst_of_first_or_held
    (h : s.inputs = .rst :: rest ∨
      ∃ d later, s.inputs = .command d :: .rst :: later ∧ s.resp ≠ none ∧ rest = .command d :: later) :
    s.nextEvent = some (.rst, rest) := by
  rcases h with hin | ⟨d, later, hin, hresp, rfl⟩
  · exact nextEvent_rst hin
  · exact nextEvent_held_rst hin hresp

/-- Waiting, a reset and the taking of a response have a next state, and every command ends (R290). -/
theorem step_next (s : State) : ∃ t, step s = .next t := by
  unfold step
  split
  · exact ⟨s, rfl⟩
  · next rest _ => exact ⟨(s.setInputs rest).applyReset, rfl⟩
  · next rest _ => exact ⟨(s.setInputs rest).handOver, rfl⟩
  · next c rest _ => exact runCommand_next ((s.setInputs rest).accept c)

/-- With a response pending and nothing but commands to come, the block waits (R292). -/
theorem step_stalled (h : ∀ e ∈ s.inputs, ∃ c, e = .command c) (hr : s.resp ≠ none) : step s = .next s :=
  step_waits (nextEvent_stalled h hr)

/-- Steps from a state that steps to itself never leave it. -/
theorem run_eq_of_step_self {run : Nat → State} (hself : step (run 0) = .next (run 0))
    (hrun : ∀ k, step (run k) = .next (run (k + 1))) (k : Nat) : run k = run 0 := by
  induction k with
  | zero => rfl
  | succ k ih =>
    have hnext : step (run k) = .next (run (k + 1)) := hrun k
    rw [ih, hself] at hnext
    exact (Host.Outcome.next.inj hnext).symm

end

/-! ## The obligations -/

/-- Settles O9: the reset happens next, and it sets every field of the block. -/
theorem resetGivesEveryPieceOfStateItsResetValue : Obligations.ResetGivesEveryPieceOfStateItsResetValue := by
  intro s rest h
  have hstep : step s = .next (s.setInputs rest).applyReset := step_rst (nextEvent_rst_of_first_or_held h)
  rw [State.applyReset_eq] at hstep
  exact ⟨_, _, _, hstep⟩

/-- Settles O10: no event at the ports faults or is refused. -/
theorem everyStepAnswersANextState : Obligations.EveryStepAnswersANextState := step_next

/-- Settles O56: the first state steps to itself. -/
theorem aHostThatTakesNoResponseStallsTheBlock : Obligations.AHostThatTakesNoResponseStallsTheBlock :=
  fun _ hresp hcommands hrun => run_eq_of_step_self (step_stalled hcommands hresp) hrun

end Sys2Proof.Machine
end
